-- ==== Sys2Proof/Word.lean ====
section
/-! DEFINITION. The widths every register, draw and command is built from (spec 00_scope.md R10-R12). -/

namespace Sys2Proof

/-- A `u64`: an engine word, a window register, a command word (R9: "register width of the host interface: 64 bits"). -/
abbrev Word := BitVec 64

/-- One byte lane of the window's bus (20_memory.md R83). -/
abbrev Byte := BitVec 8

end Sys2Proof
end

