-- ==== Sys2Proof/Config.lean ====
section
/-! DEFINITION. What is fixed for one block (10_state.md R48) and what the spec leaves open. The `opaque` constants
have no body: nothing can be proved of their values, so a theorem holds for every value of them. -/

namespace Sys2Proof

/-- Which half of an engine word a 32-bit draw returns first (00_scope.md R9, 42_subword_cache.md R203). -/
inductive HalfOrder where
  | low
  | high
  deriving DecidableEq, Repr

/-- `HALF32_FIRST` = `LOW` for this hardware (R9, D5). -/
def Config.half32First : HalfOrder := .low

/-- FREE VALUE (log entry 11). Which 128-byte window of the platform's address space is the block's: `BASE` is a
parameter, a multiple of 128 (R9, 20_memory.md R81). -/
opaque Config.windowIndex : Nat

/-- `BASE` (R81). -/
def Config.base : Nat := 128 * Config.windowIndex

/-- FREE VALUE (log entry 3). How many events the n-th free choice lets pass before an accepted command ends:
"Command latency is not fixed" (70_reset_and_hazards.md R294, R301). -/
opaque Config.latency : Nat → Nat

/-- FREE VALUE (log entry 8). What the n-th free choice returns for a read that R297 and D16 call unspecified. -/
opaque Config.busyRead : Nat → Word

end Sys2Proof
end

