-- ==== Sys2Proof/Syntax.lean ====
section
/-! DEFINITION. The command set: one constructor per row of spec/opcode_table.json (30_encoding.md R105). A command has
no operand of its own; its operands are window registers (R109). -/

namespace Sys2Proof

/-- "The legal commands are exactly these 21 values" (R105). -/
inductive Instr where
  /-- NOP (40_engine.md R150). -/
  | nop
  /-- SEED (R146). -/
  | seed
  /-- NEXT.B (42_subword_cache.md R206). -/
  | nextB
  /-- NEXT.U8 (R207). -/
  | nextU8
  /-- NEXT.S8 (R208). -/
  | nextS8
  /-- NEXT.U16 (R209). -/
  | nextU16
  /-- NEXT.S16 (R210). -/
  | nextS16
  /-- NEXT.U32 (R211). -/
  | nextU32
  /-- NEXT.S32 (R212). -/
  | nextS32
  /-- NEXT.U64 (40_engine.md R148). -/
  | nextU64
  /-- NEXT.S64 (R149). -/
  | nextS64
  /-- RANGE.U8 (41_bounded.md R178). -/
  | rangeU8
  /-- RANGE.S8 (R179). -/
  | rangeS8
  /-- RANGE.U16 (R180). -/
  | rangeU16
  /-- RANGE.S16 (R181). -/
  | rangeS16
  /-- RANGE.U32 (R182). -/
  | rangeU32
  /-- RANGE.S32 (R183). -/
  | rangeS32
  /-- RANGE.U64 (R184). -/
  | rangeU64
  /-- RANGE.S64 (R185). -/
  | rangeS64
  /-- CAPTURE (43_state_container.md R232). -/
  | capture
  /-- RESTORE (R233). -/
  | restore
  deriving DecidableEq, Repr

end Sys2Proof
end

