-- ==== Sys2Proof/WellFormed.lean ====
section
/-! DEFINITION. The one command format `CW` as fields (30_encoding.md R101) and the checks a well-formed command word
passes (R102, R103, R107), each with a name of its own. -/

namespace Sys2Proof

/-- The fields of format `CW` (R101); `rsv` is `RSVH` and `RSVL` together, bits 63:8. -/
structure Fields where
  op  : BitVec 4
  wid : BitVec 3
  sgn : BitVec 1
  rsv : BitVec 56
  deriving DecidableEq, Repr

/-- Why a command word is illegal: the cases R107 lists. -/
inductive FormatError where
  /-- "non-zero `RSVH` or `RSVL`". -/
  | reservedBits
  /-- "`OP` 0x6-0xF". -/
  | reservedOp
  /-- "`WID` 5-7", for NEXT and RANGE. -/
  | reservedWidth
  /-- "`WID` 0 with `SGN` 1 for NEXT". -/
  | signedBoolean
  /-- "`WID` 0 for RANGE" (90_conflicts.md C5). -/
  | booleanRange
  /-- "non-zero `WID` or `SGN` for NOP, SEED, CAPTURE and RESTORE". -/
  | fieldsNotZero
  deriving DecidableEq, Repr

/-- The reserved bits are zero (R101). -/
def Fields.reservedZero (f : Fields) : Bool := f.rsv == 0

/-- `OP` names an operation (R102). -/
def Fields.opNamed (f : Fields) : Bool := f.op.toNat ≤ 5

/-- `OP` is NEXT or RANGE, the only operations with a width (R103). -/
def Fields.isDraw (f : Fields) : Bool := f.op == 2 || f.op == 3

/-- A draw's `WID` names a width (R103). -/
def Fields.widthNamed (f : Fields) : Bool := !f.isDraw || f.wid.toNat ≤ 4

/-- The boolean width is for an unsigned NEXT only (R103). -/
def Fields.booleanOk (f : Fields) : Bool := !f.isDraw || f.wid != 0 || (f.op == 2 && f.sgn == 0)

/-- "For NOP, SEED, CAPTURE and RESTORE, `WID` and `SGN` must both be 0" (R103). -/
def Fields.plainZero (f : Fields) : Bool := f.isDraw || (f.wid == 0 && f.sgn == 0)

/-- A command word of the table of R105. -/
def Fields.wf (f : Fields) : Bool :=
  f.reservedZero && f.opNamed && f.widthNamed && f.booleanOk && f.plainZero

end Sys2Proof
end

