-- ==== Sys2Proof/Decode.lean ====
section
/-! DEFINITION. `Decode` of 30_encoding.md R106, total on all 64-bit values, with a name for each reason R107 gives a
value to be illegal; the byte lanes a word is laid out in (20_memory.md R83); and after them the encoder, written
from the table of R105. -/

namespace Sys2Proof

/-- The fields of a command word: `OP` bits 3:0, `WID` 6:4, `SGN` 7, the rest reserved (R101). -/
def Fields.ofWord (v : Word) : Fields where
  op  := v.extractLsb' 0 4
  wid := v.extractLsb' 4 3
  sgn := v.extractLsb' 7 1
  rsv := v.extractLsb' 8 56

/-- The word with these fields (R101), `{rsv, sgn, wid, op}`. -/
def Fields.toWord (f : Fields) : Word := f.rsv ++ f.sgn ++ f.wid ++ f.op

/-- `OP` 0x0, 0x1, 0x4, 0x5: legal with `WID` and `SGN` zero only (R106). -/
def decodePlain (i : Instr) (wid : BitVec 3) (sgn : BitVec 1) : Except FormatError Instr :=
  if wid = 0 ∧ sgn = 0 then .ok i else .error .fieldsNotZero

/-- `OP` 0x2 (R106). -/
def decodeNext (wid : BitVec 3) (sgn : BitVec 1) : Except FormatError Instr :=
  match wid.toNat, sgn.toNat with
  | 0, 0 => .ok .nextB
  | 0, _ => .error .signedBoolean
  | 1, 0 => .ok .nextU8
  | 1, _ => .ok .nextS8
  | 2, 0 => .ok .nextU16
  | 2, _ => .ok .nextS16
  | 3, 0 => .ok .nextU32
  | 3, _ => .ok .nextS32
  | 4, 0 => .ok .nextU64
  | 4, _ => .ok .nextS64
  | _, _ => .error .reservedWidth

/-- `OP` 0x3 (R106). -/
def decodeRange (wid : BitVec 3) (sgn : BitVec 1) : Except FormatError Instr :=
  match wid.toNat, sgn.toNat with
  | 0, _ => .error .booleanRange
  | 1, 0 => .ok .rangeU8
  | 1, _ => .ok .rangeS8
  | 2, 0 => .ok .rangeU16
  | 2, _ => .ok .rangeS16
  | 3, 0 => .ok .rangeU32
  | 3, _ => .ok .rangeS32
  | 4, 0 => .ok .rangeU64
  | 4, _ => .ok .rangeS64
  | _, _ => .error .reservedWidth

/-- The fields of a word whose reserved bits are zero (R106). -/
def decodeFields (f : Fields) : Except FormatError Instr :=
  match f.op.toNat with
  | 0 => decodePlain .nop f.wid f.sgn
  | 1 => decodePlain .seed f.wid f.sgn
  | 2 => decodeNext f.wid f.sgn
  | 3 => decodeRange f.wid f.sgn
  | 4 => decodePlain .capture f.wid f.sgn
  | 5 => decodePlain .restore f.wid f.sgn
  | _ => .error .reservedOp

/-- `Decode(v)` (R106): one legal command, or `Illegal` with its reason. -/
def decode (v : Word) : Except FormatError Instr :=
  let f := Fields.ofWord v
  if f.rsv ≠ 0 then .error .reservedBits else decodeFields f

/-- The eight byte lanes of a 64-bit register, lane 0 first: "byte lane k carries bits [8k+7:8k]" (R83). -/
def lanes (v : Word) : List Byte := (List.range 8).map fun k => v.extractLsb' (8 * k) 8

/-- The 64-bit value that eight byte lanes carry (R83); nothing for another number of lanes (R85). -/
def ofLanes : List Byte → Option Word
  | [b0, b1, b2, b3, b4, b5, b6, b7] => some (b7 ++ b6 ++ b5 ++ b4 ++ b3 ++ b2 ++ b1 ++ b0)
  | _ => none

/-- The command word of an instruction of the table whose bits are `w`: all bits above `nbits` are zero. A value that
does not fit in the one 64-bit write is no command (R100). -/
def tableWord (nbits w : Nat) : Option Word :=
  if w % 2 ^ nbits < 2 ^ 64 then some (BitVec.ofNat 64 (w % 2 ^ nbits)) else none

/-- What the decoder reads from the instruction whose bits are `w`, laid out in the window's byte lanes. -/
def decodeTableWord (nbits w : Nat) : Option Instr :=
  match (tableWord nbits w).bind fun v => ofLanes (lanes v) with
  | some v => (decode v).toOption
  | none => none

/-- `{rsv = 0, sgn, wid, op}` of each row of the table of R105. -/
def Instr.fields : Instr → Fields
  | .nop       => ⟨0, 0, 0, 0⟩
  | .seed      => ⟨1, 0, 0, 0⟩
  | .nextB     => ⟨2, 0, 0, 0⟩
  | .nextU8    => ⟨2, 1, 0, 0⟩
  | .nextS8    => ⟨2, 1, 1, 0⟩
  | .nextU16   => ⟨2, 2, 0, 0⟩
  | .nextS16   => ⟨2, 2, 1, 0⟩
  | .nextU32   => ⟨2, 3, 0, 0⟩
  | .nextS32   => ⟨2, 3, 1, 0⟩
  | .nextU64   => ⟨2, 4, 0, 0⟩
  | .nextS64   => ⟨2, 4, 1, 0⟩
  | .rangeU8   => ⟨3, 1, 0, 0⟩
  | .rangeS8   => ⟨3, 1, 1, 0⟩
  | .rangeU16  => ⟨3, 2, 0, 0⟩
  | .rangeS16  => ⟨3, 2, 1, 0⟩
  | .rangeU32  => ⟨3, 3, 0, 0⟩
  | .rangeS32  => ⟨3, 3, 1, 0⟩
  | .rangeU64  => ⟨3, 4, 0, 0⟩
  | .rangeS64  => ⟨3, 4, 1, 0⟩
  | .capture   => ⟨4, 0, 0, 0⟩
  | .restore   => ⟨5, 0, 0, 0⟩

/-- A command's fields pass every check of R103 and R107. -/
def Instr.wf (i : Instr) : Bool := i.fields.wf

/-- The value a host writes to `CMD` for this command (R105). -/
def encode (i : Instr) : Word := i.fields.toWord

/-- The command's name (30_encoding.md R112). -/
def Instr.mnemonic : Instr → String
  | .nop       => "NOP"
  | .seed      => "SEED"
  | .nextB     => "NEXT.B"
  | .nextU8    => "NEXT.U8"
  | .nextS8    => "NEXT.S8"
  | .nextU16   => "NEXT.U16"
  | .nextS16   => "NEXT.S16"
  | .nextU32   => "NEXT.U32"
  | .nextS32   => "NEXT.S32"
  | .nextU64   => "NEXT.U64"
  | .nextS64   => "NEXT.S64"
  | .rangeU8   => "RANGE.U8"
  | .rangeS8   => "RANGE.S8"
  | .rangeU16  => "RANGE.U16"
  | .rangeS16  => "RANGE.S16"
  | .rangeU32  => "RANGE.U32"
  | .rangeS32  => "RANGE.S32"
  | .rangeU64  => "RANGE.U64"
  | .rangeS64  => "RANGE.S64"
  | .capture   => "CAPTURE"
  | .restore   => "RESTORE"

end Sys2Proof
end

