-- ==== Sys2Proof/Machine/State.lean ====
section
/-! DEFINITION. Every piece of state the spec gives the block (10_state.md R30-R49) as plain data, the host's side of
the register window as a list of events still to come, and the state after reset. -/

namespace Sys2Proof.Machine

/-- The live EngineState of R30, "the only persistent entity". -/
structure Engine where
  /-- `S0`. -/
  s0 : Word
  /-- `S1`. -/
  s1 : Word
  /-- `S2`. -/
  s2 : Word
  /-- `S3`. -/
  s3 : Word
  /-- `BOOL_REM`, 0..64. -/
  boolRem : BitVec 7
  /-- `BOOL_BITS`. -/
  boolBits : Word
  /-- `BYTE_REM`, 0..8 units (90_conflicts.md C2). -/
  byteRem : BitVec 4
  /-- `BYTE_BITS`. -/
  byteBits : Word
  /-- `WORD_REM`, 0..4 units. -/
  wordRem : BitVec 3
  /-- `WORD_BITS`. -/
  wordBits : Word
  /-- `pending32`, "an explicit two-variant option type": `P32_VALID` is which variant, `P32_VALUE` the value (R32). -/
  pending32 : Option (BitVec 32)
  deriving DecidableEq, Repr

/-- The snapshot register file `SNAP0..SNAP7` (R45). -/
structure Image where
  snap0 : Word
  snap1 : Word
  snap2 : Word
  snap3 : Word
  snap4 : Word
  snap5 : Word
  snap6 : Word
  snap7 : Word
  deriving DecidableEq, Repr

/-- The sixteen slots of the register window (R34). -/
inductive Reg where
  | cmd | status | opa | opb | result | stepCount | reserved30 | reserved38
  | snap0 | snap1 | snap2 | snap3 | snap4 | snap5 | snap6 | snap7
  deriving DecidableEq, Repr

/-- What happens at the block's boundary (20_memory.md R82, 30_encoding.md R113, 70_reset_and_hazards.md R290). Each
access names the agent that makes it, its address and its width in bytes. -/
inductive HostEvent where
  /-- `MemWrite(addr, size, value)`. -/
  | write (agent addr size : Nat) (value : Word)
  /-- `MemRead(addr, size)`. -/
  | read (agent addr size : Nat)
  /-- `WAIT`: "repeat `RD STATUS` until `st[0]` = 0" (R113). -/
  | wait (agent : Nat)
  /-- The reset input, or power (R290; "loss of power is equivalent to a reset", 60_exceptions.md R275). -/
  | reset
  deriving DecidableEq, Repr

/-- Whether a command is in progress (R40). `running n` ends after `n` more events; `hung` is a RANGE whose redraw loop
never ends: "`BUSY` stays 1 and only reset ends it" (93_implementation_defined.md I13). -/
inductive Phase where
  | idle
  | running (left : Nat)
  | hung
  deriving DecidableEq, Repr

/-- The error codes of 60_exceptions.md R260. They are results in `STATUS.ERR`, not faults. -/
inductive ErrorKind where
  | invalidSeed
  | invalidRange
  | invalidState
  | notSeeded
  | illegalCommand
  deriving DecidableEq, Repr

/-- The whole block, and the host's side of its window. -/
structure State where
  /-- The live EngineState (R30). -/
  engine : Engine
  /-- `CMD` (R35). -/
  cmd : Word
  /-- `STATUS.ERR` (R38). -/
  err : BitVec 4
  /-- `STATUS.OVR` (R39). -/
  ovr : Bool
  /-- The command in progress; `STATUS.BUSY` is that it is not idle (R40). -/
  phase : Phase
  /-- `OPA` (R41). -/
  opa : Word
  /-- `OPB` (R42). -/
  opb : Word
  /-- `RESULT` (R43). -/
  result : Word
  /-- `STEPCOUNT` (R44). -/
  stepCount : Word
  /-- `SNAP0..SNAP7` (R45). -/
  snap : Image
  /-- The MODEL's own: the events still to come, first next (log entry 4). -/
  host : List HostEvent
  /-- The MODEL's own: the data the last read returned to the host (log entry 5). -/
  lastRead : Option Word
  /-- The MODEL's own: the one host agent of the run (R298), once it has made an access (log entry 6). -/
  owner : Option Nat
  /-- The MODEL's own: which free value is taken next (log entry 7). -/
  freeIndex : Nat
  deriving DecidableEq, Repr

/-- Why the machine stops with a fault. It has no constructor: "There are no traps" (R267), every error of a command
is a code in `STATUS.ERR` (R263), and a redraw loop that never ends is the phase `hung`, in which the block goes on
answering its host. -/
inductive Fault where
  deriving DecidableEq, Repr

/-- What the model gives no meaning. Each stop is SAFE: hardware may answer where the model stops. -/
inductive Refusal where
  /-- Raised by `exec` for an instruction that has no meaning yet; safe. No arm raises it in this model. -/
  | notModelled (mnemonic : String)
  /-- Raised by a host access outside `BASE .. BASE+0x7F`: "not this block's" (R46, I4); safe. -/
  | outsideWindow
  /-- Raised by a host access that is not 8 bytes wide: "A model refuses such an access" (R85, I3); safe. -/
  | accessWidth
  /-- Raised by a host access at an offset that is no multiple of 8 (R85, I3); safe. -/
  | misaligned
  /-- Raised by an access of a second host agent: "A model refuses any run with more than one host agent" (R298, U1);
  safe. -/
  | secondHost
  deriving DecidableEq, Repr

/-- The EngineState after reset: all zero, the block is unseeded (R49). -/
def Engine.reset : Engine where
  s0 := 0
  s1 := 0
  s2 := 0
  s3 := 0
  boolRem := 0
  boolBits := 0
  byteRem := 0
  byteBits := 0
  wordRem := 0
  wordBits := 0
  pending32 := none

/-- `SNAP0..SNAP7` after reset (R49). -/
def Image.reset : Image := ⟨0, 0, 0, 0, 0, 0, 0, 0⟩

/-- Every register at its value of R49, no command started (R291); the model's own fields as log entries 4-7 say. -/
def State.reset : State where
  engine := Engine.reset
  cmd := 0
  err := 0
  ovr := false
  phase := .idle
  opa := 0
  opb := 0
  result := 0
  stepCount := 0
  snap := Image.reset
  host := []
  lastRead := none
  owner := none
  freeIndex := 0

end Sys2Proof.Machine
end

