-- ==== Sys2Proof/Machine/Flags.lean ====
section
/-! DEFINITION. The fields of `STATUS` (10_state.md R36-R40) and the result codes of `STATUS.ERR` (60_exceptions.md
R260). -/

namespace Sys2Proof.Machine

/-- The permutation state is not all zero (R31). -/
def Engine.seeded (e : Engine) : Bool := (e.s0 ||| e.s1 ||| e.s2 ||| e.s3) != 0

/-- `STATUS.SEEDED`: "holds no storage of its own. It reads `(S0 | S1 | S2 | S3) != 0`" (R37). -/
def State.seeded (s : State) : Bool := s.engine.seeded

/-- A command is in progress. -/
def Phase.busy : Phase → Bool
  | .idle => false
  | .running _ => true
  | .hung => true

/-- `STATUS.BUSY` (R40). -/
def State.busy (s : State) : Bool := s.phase.busy

/-- The number of each error (R260); 0 is OK, 6-15 are never written. -/
def ErrorKind.code : ErrorKind → BitVec 4
  | .invalidSeed => 1
  | .invalidRange => 2
  | .invalidState => 3
  | .notSeeded => 4
  | .illegalCommand => 5

/-- One bit, 1 for true. -/
def bit (b : Bool) : BitVec 1 := if b then 1 else 0

/-- The word `STATUS` reads as (R36): `BUSY` bit 0, `SEEDED` bit 1, `ERR` bits 7:4, `OVR` bit 8, reserved bits 0. -/
def State.status (s : State) : Word :=
  (0 : BitVec 55) ++ bit s.ovr ++ s.err ++ (0 : BitVec 2) ++ bit s.seeded ++ bit s.busy

/-- A host write of v to `STATUS`: "clears `OVR` if bit 8 of the written value is 1. It changes no other bit" (R36). -/
def State.writeStatus (s : State) (v : Word) : State := { s with ovr := s.ovr && !v.getLsbD 8 }

/-- A host write that arrives while busy is dropped and sets the sticky `OVR` (R39, 70_reset_and_hazards.md R296). -/
def State.overrun (s : State) : State := { s with ovr := true }

end Sys2Proof.Machine
end

