-- ==== Sys2Proof/Machine/Operands.lean ====
section
/-! DEFINITION. How a command reads its operands and widens its result (30_encoding.md R109, R110), and the registers of
the window as a host access sees them (10_state.md R34, 20_memory.md R82-R86). -/

namespace Sys2Proof.Machine

/-! ### Operands and results of a command -/

/-- A W-bit pattern read as `uW` or as `sW` (R104, R109). -/
def readAs (sgn : Bool) {w : Nat} (v : BitVec w) : Int := if sgn then v.toInt else (v.toNat : Int)

/-- `OPA[W-1:0]` or `OPB[W-1:0]`; the bits above are ignored (R109). -/
def lowBits (w : Nat) (v : Word) : BitVec w := v.extractLsb' 0 w

/-- `min` of a RANGE of width w (R109). -/
def State.rangeMin (s : State) (w : Nat) (sgn : Bool) : Int := readAs sgn (lowBits w s.opa)

/-- `max` of a RANGE of width w (R109). -/
def State.rangeMax (s : State) (w : Nat) (sgn : Bool) : Int := readAs sgn (lowBits w s.opb)

/-- The drawn value as the 64-bit `RESULT`: sign-extended for S, zero-extended for U and B (R110). -/
def widen (sgn : Bool) {w : Nat} (v : BitVec w) : Word := if sgn then v.signExtend 64 else v.setWidth 64

/-! ### The register window -/

/-- The byte offset of each slot (R34). -/
def Reg.offset : Reg → Nat
  | .cmd => 0x00
  | .status => 0x08
  | .opa => 0x10
  | .opb => 0x18
  | .result => 0x20
  | .stepCount => 0x28
  | .reserved30 => 0x30
  | .reserved38 => 0x38
  | .snap0 => 0x40
  | .snap1 => 0x48
  | .snap2 => 0x50
  | .snap3 => 0x58
  | .snap4 => 0x60
  | .snap5 => 0x68
  | .snap6 => 0x70
  | .snap7 => 0x78

/-- The address of a slot (R82). -/
def Reg.addr (r : Reg) : Nat := Config.base + r.offset

/-- The slot at slot number k = offset / 8, k < 16 (R34). -/
def regOfSlot : Nat → Reg
  | 0 => .cmd
  | 1 => .status
  | 2 => .opa
  | 3 => .opb
  | 4 => .result
  | 5 => .stepCount
  | 6 => .reserved30
  | 7 => .reserved38
  | 8 => .snap0
  | 9 => .snap1
  | 10 => .snap2
  | 11 => .snap3
  | 12 => .snap4
  | 13 => .snap5
  | 14 => .snap6
  | _ => .snap7

/-- The register a host access reaches: "The only defined host access is a 64-bit access at an offset that is a multiple
of 8", inside the window (R85). Every other access is refused (I3, I4). -/
def accessTarget (addr size : Nat) : Except Refusal Reg :=
  if addr / 128 ≠ Config.windowIndex then .error .outsideWindow
  else if size ≠ 8 then .error .accessWidth
  else if addr % 8 ≠ 0 then .error .misaligned
  else .ok (regOfSlot (addr % 128 / 8))

/-- What a host read of each slot returns (R34); the reserved slots read as 0 (R46). -/
def State.readReg (s : State) : Reg → Word
  | .cmd => s.cmd
  | .status => s.status
  | .opa => s.opa
  | .opb => s.opb
  | .result => s.result
  | .stepCount => s.stepCount
  | .reserved30 => 0
  | .reserved38 => 0
  | .snap0 => s.snap.snap0
  | .snap1 => s.snap.snap1
  | .snap2 => s.snap.snap2
  | .snap3 => s.snap.snap3
  | .snap4 => s.snap.snap4
  | .snap5 => s.snap.snap5
  | .snap6 => s.snap.snap6
  | .snap7 => s.snap.snap7

/-- The byte lane k of a slot, k = 0..7 (R83). -/
def State.readLane (s : State) (r : Reg) (k : Nat) : Byte := (s.readReg r).extractLsb' (8 * k) 8

/-- A host write of `CMD` while idle stores the value and starts the command it encodes (R35); how long the command stays
in progress is a free value (R294). -/
def State.startCommand (s : State) (v : Word) : State :=
  { s with cmd := v, phase := .running (Config.latency s.freeIndex), freeIndex := s.freeIndex + 1 }

/-- What a host write of each slot does while the block is idle (R34, R86). -/
def State.writeReg (s : State) (v : Word) : Reg → State
  | .cmd => s.startCommand v
  | .status => s.writeStatus v
  | .opa => { s with opa := v }
  | .opb => { s with opb := v }
  | .result => s
  | .stepCount => s
  | .reserved30 => s
  | .reserved38 => s
  | .snap0 => { s with snap := { s.snap with snap0 := v } }
  | .snap1 => { s with snap := { s.snap with snap1 := v } }
  | .snap2 => { s with snap := { s.snap with snap2 := v } }
  | .snap3 => { s with snap := { s.snap with snap3 := v } }
  | .snap4 => { s with snap := { s.snap with snap4 := v } }
  | .snap5 => { s with snap := { s.snap with snap5 := v } }
  | .snap6 => { s with snap := { s.snap with snap6 := v } }
  | .snap7 => { s with snap := { s.snap with snap7 := v } }

/-- The registers whose read is unspecified while `BUSY` = 1: "A read of any register but `STATUS`" (R297 and the decision
it carries, 92_eei_decisions.md D16; log entry 8). `STATUS` reads right at all times; the two reserved slots are no
registers (D3) and read as 0 (R46). -/
def Reg.freeWhileBusy : Reg → Bool
  | .cmd => true
  | .status => false
  | .opa => true
  | .opb => true
  | .result => true
  | .stepCount => true
  | .reserved30 => false
  | .reserved38 => false
  | .snap0 => true
  | .snap1 => true
  | .snap2 => true
  | .snap3 => true
  | .snap4 => true
  | .snap5 => true
  | .snap6 => true
  | .snap7 => true

end Sys2Proof.Machine
end

