-- ==== Sys2Proof/Machine/Ops.lean ====
section
/-! DEFINITION. The shared operations of all commands: the engine step and the seed expander (40_engine.md R140-R145),
the raw draws through the sub-word caches (42_subword_cache.md R200-R204), the bounded generator (41_bounded.md
R170-R174), the image functions (43_state_container.md R230-R233), and how a command ends, with success or with an
error (60_exceptions.md R263, R264). -/

namespace Sys2Proof.Machine

/-! ### The Core Engine -/

/-- `rotl(a, k) = (a << k) | (a >> (64 - k))`, for 0 < k < 64 (00_scope.md R12). -/
def rotl (a : Word) (k : Nat) : Word := (a <<< k) ||| (a >>> (64 - k))

/-- The value one engine step returns (R140). -/
def Engine.output (e : Engine) : Word := rotl (e.s1 * 5) 7 * 9

/-- The permutation state after one engine step; each line uses what the lines before it left (R140). -/
def Engine.advance (e : Engine) : Engine :=
  let t := e.s1 <<< 17
  let s2 := e.s2 ^^^ e.s0
  let s3 := e.s3 ^^^ e.s1
  let s1 := e.s1 ^^^ s2
  let s0 := e.s0 ^^^ s3
  { e with s0 := s0, s1 := s1, s2 := s2 ^^^ t, s3 := rotl s3 45 }

/-- What a draw of w bits gives: the value, the EngineState it leaves, and the number of `Step()` calls it made, which
`STEPCOUNT` adds up (10_state.md R44). -/
structure Draw (w : Nat) where
  value : BitVec w
  engine : Engine
  steps : Nat
  deriving DecidableEq, Repr

/-- `Step()` (R140). -/
def Engine.step (e : Engine) : Draw 64 := ⟨e.output, e.advance, 1⟩

/-! ### The Seed Expander -/

/-- The first multiplier (R144). -/
def mixFirst : Word := 0xBF58476D1CE4E5B9

/-- The second multiplier (R144). -/
def mixSecond : Word := 0x94D049BB133111EB

/-- `Mix64(z)` (R144; its arrangement is the spec's general knowledge, log entry 9). The constants stand as first
factors, so that unfolding a product with an unknown `z` stops at `z` and does not count through the constant. -/
def mix64 (z : Word) : Word :=
  let a := mixFirst * (z ^^^ (z >>> 30))
  let b := mixSecond * (a ^^^ (a >>> 27))
  b ^^^ (b >>> 31)

/-- "golden-ratio increment" (R145), the first summand below for the same reason. -/
def goldenGamma : Word := 0x9E3779B97F4A7C15

/-- `SeedExpand(seed)`: the accumulator is advanced, then scrambled, four times (R145). Every cache is empty and
`pending32` absent, as SEED leaves them (R146, D17). -/
def seedExpand (seed : Word) : Engine :=
  let acc1 := goldenGamma + seed
  let acc2 := goldenGamma + acc1
  let acc3 := goldenGamma + acc2
  let acc4 := goldenGamma + acc3
  { Engine.reset with s0 := mix64 acc1, s1 := mix64 acc2, s2 := mix64 acc3, s3 := mix64 acc4 }

/-! ### Raw draws -/

/-- `Raw_1()` (R200). -/
def Engine.raw1 (e : Engine) : Draw 1 :=
  let full := if e.boolRem = 0 then { e.advance with boolBits := e.output, boolRem := 64 } else e
  { value := full.boolBits.extractLsb' 0 1
    engine := { full with boolBits := full.boolBits >>> 1, boolRem := full.boolRem - 1 }
    steps := if e.boolRem = 0 then 1 else 0 }

/-- `Raw_8()` (R201). -/
def Engine.raw8 (e : Engine) : Draw 8 :=
  let full := if e.byteRem = 0 then { e.advance with byteBits := e.output, byteRem := 8 } else e
  { value := full.byteBits.extractLsb' 0 8
    engine := { full with byteBits := full.byteBits >>> 8, byteRem := full.byteRem - 1 }
    steps := if e.byteRem = 0 then 1 else 0 }

/-- `Raw_16()` (R202). -/
def Engine.raw16 (e : Engine) : Draw 16 :=
  let full := if e.wordRem = 0 then { e.advance with wordBits := e.output, wordRem := 4 } else e
  { value := full.wordBits.extractLsb' 0 16
    engine := { full with wordBits := full.wordBits >>> 16, wordRem := full.wordRem - 1 }
    steps := if e.wordRem = 0 then 1 else 0 }

/-- `Raw_32()` (R203): the pending half if there is one, else the half of a new engine word that `HALF32_FIRST` names,
and the other half becomes pending. -/
def Engine.raw32 (e : Engine) : Draw 32 :=
  match e.pending32 with
  | some half => ⟨half, { e with pending32 := none }, 0⟩
  | none =>
    let lowHalf := e.output.extractLsb' 0 32
    let highHalf := e.output.extractLsb' 32 32
    match Config.half32First with
    | .low => ⟨lowHalf, { e.advance with pending32 := some highHalf }, 1⟩
    | .high => ⟨highHalf, { e.advance with pending32 := some lowHalf }, 1⟩

/-- `Raw_64()` is `Step()` (R204). -/
def Engine.raw64 (e : Engine) : Draw 64 := e.step

/-! ### The bounded generator -/

/-- "its low W bits" of the exact product `x * range` (R173). -/
def lowPart {w : Nat} (range : Nat) (x : BitVec w) : Nat := x.toNat * range % 2 ^ w

/-- The high W bits of the exact product `x * range` (R173). -/
def highPart {w : Nat} (range : Nat) (x : BitVec w) : Nat := x.toNat * range / 2 ^ w

/-- The threshold `(2^W - range) mod range` (R174). -/
def threshold (w range : Nat) : Nat := (2 ^ w - range) % range

/-- No fewer than there are values of type `Engine`: its fields have 495 bits. The redraw loop is a function of the
engine alone, so a loop that has not ended after this many redraws has met one engine twice and never ends: the number
assumes no bound on redraws (R300, log entry 2). -/
def engineCount : Nat := 2 ^ 247 * 2 ^ 248

/-- "while low < t: redraw x, recompute m, low and retry" (R173), from a draw already made; nothing if the loop never
ends. -/
def redraw {w : Nat} (raw : Engine → Draw w) (range t : Nat) : Nat → Draw w → Option (Draw w)
  | 0, _ => none
  | fuel + 1, d =>
    if lowPart range d.value < t then
      let next := raw d.engine
      redraw raw range t fuel { next with steps := d.steps + next.steps }
    else some d

/-- `Lemire_W(range)` (R173): the value is "high". The threshold is used only if the first `low < range`. -/
def lemire {w : Nat} (raw : Engine → Draw w) (range : Nat) (e : Engine) : Option (Draw w) :=
  let first := raw e
  let accepted :=
    if lowPart range first.value < range then redraw raw range (threshold w range) engineCount first
    else some first
  accepted.map fun d => { d with value := BitVec.ofNat w (highPart range d.value) }

/-- How `Bounded_W` ends. -/
inductive Bounded where
  /-- It returns a value (paths 1, 2 and 4 of R171). -/
  | value (v : Int) (engine : Engine) (steps : Nat)
  /-- Path 3 of R171. -/
  | invalidRange
  /-- The redraw loop of path 4 never ends (R300). -/
  | neverEnds
  deriving DecidableEq, Repr

/-- The least value of `uW` or `sW` (R171). -/
def rangeLo (w : Nat) (sgn : Bool) : Int := if sgn then -((2 ^ (w - 1) : Nat) : Int) else 0

/-- The greatest value of `uW` or `sW` (R171). -/
def rangeHi (w : Nat) (sgn : Bool) : Int :=
  if sgn then ((2 ^ (w - 1) : Nat) : Int) - 1 else ((2 ^ w : Nat) : Int) - 1

/-- `Bounded_W(min, max, sgn)`: the four paths "in this priority order" (R171, 90_conflicts.md C4). -/
def bounded {w : Nat} (raw : Engine → Draw w) (sgn : Bool) (min max : Int) (e : Engine) : Bounded :=
  if min = max then .value min e 0
  else if min = rangeLo w sgn ∧ max = rangeHi w sgn then
    let d := raw e
    .value (readAs sgn d.value) d.engine d.steps
  else if max < min then .invalidRange
  else
    match lemire raw (max - min + 1).toNat e with
    | some d => .value (min + d.value.toNat) d.engine d.steps
    | none => .neverEnds

/-! ### Images of the EngineState -/

/-- `P32_VALID` (10_state.md R30). -/
def Engine.p32Valid (e : Engine) : BitVec 1 := bit e.pending32.isSome

/-- `P32_VALUE`, 0 while absent (R32). -/
def Engine.p32Value (e : Engine) : BitVec 32 := e.pending32.getD 0

/-- `Pack()`: the image of an EngineState in the layout of 10_state.md R45 (R230). -/
def pack (e : Engine) : Image where
  snap0 := e.s0
  snap1 := e.s1
  snap2 := e.s2
  snap3 := e.s3
  snap4 := e.boolBits
  snap5 := e.byteBits
  snap6 := e.wordBits
  snap7 := e.boolRem.setWidth 64
    ||| e.byteRem.setWidth 64 <<< 8
    ||| e.wordRem.setWidth 64 <<< 16
    ||| e.p32Valid.setWidth 64 <<< 24
    ||| e.p32Value.setWidth 64 <<< 32

/-- `ValidImage()` (R231): not the all-zero permutation state, every counter in its range, every reserved bit 0. -/
def Image.valid (m : Image) : Bool :=
  (m.snap0 ||| m.snap1 ||| m.snap2 ||| m.snap3) != 0
    && (m.snap7.extractLsb' 0 7).toNat ≤ 64
    && (m.snap7.extractLsb' 8 4).toNat ≤ 8
    && (m.snap7.extractLsb' 16 3).toNat ≤ 4
    && m.snap7.extractLsb' 7 1 == 0
    && m.snap7.extractLsb' 12 4 == 0
    && m.snap7.extractLsb' 19 5 == 0
    && m.snap7.extractLsb' 25 7 == 0

/-- The EngineState RESTORE loads from an image (R233); the pending value is discarded when bit 24 is 0. -/
def Image.unpack (m : Image) : Engine where
  s0 := m.snap0
  s1 := m.snap1
  s2 := m.snap2
  s3 := m.snap3
  boolRem := m.snap7.extractLsb' 0 7
  boolBits := m.snap4
  byteRem := m.snap7.extractLsb' 8 4
  byteBits := m.snap5
  wordRem := m.snap7.extractLsb' 16 3
  wordBits := m.snap6
  pending32 := if m.snap7.extractLsb' 24 1 = 1 then some (m.snap7.extractLsb' 32 32) else none

/-! ### How a command ends -/

/-- The last state write of a command: its result code, and `BUSY` returns to 0 (10_state.md R40, R38). -/
def State.finish (s : State) (code : BitVec 4) : State := { s with err := code, phase := .idle }

/-- `raise E`: "`STATUS.ERR <- code(E)` is its only state write" (R263). This is all that taking an exception is on this
hardware (R267), and there is no return from one (R268). -/
def State.raise (s : State) (e : ErrorKind) : State := s.finish e.code

/-- Success: `STATUS.ERR <- 0` (R264). -/
def State.succeed (s : State) : State := s.finish 0

/-- A RANGE that never ends: nothing is written and `BUSY` stays 1 (R300, I13). -/
def State.hang (s : State) : State := { s with phase := .hung }

/-- A successful draw: the EngineState it leaves, `STEPCOUNT` up by its engine steps (mod 2^64), `RESULT` (R43, R44). -/
def State.drew (s : State) (engine : Engine) (steps : Nat) (result : Word) : State :=
  { s with engine := engine, stepCount := s.stepCount + BitVec.ofNat 64 steps, result := result }.succeed

/-- A NEXT command: NotSeeded while unseeded, else one raw draw (R148, R149, R206-R212). -/
def nextDraw {w : Nat} (raw : Engine → Draw w) (sgn : Bool) (s : State) : Host.Outcome State Fault Refusal :=
  if s.seeded then
    let d := raw s.engine
    .next (s.drew d.engine d.steps (widen sgn d.value))
  else .next (s.raise .notSeeded)

/-- A RANGE command (R170). -/
def rangeDraw {w : Nat} (raw : Engine → Draw w) (sgn : Bool) (s : State) : Host.Outcome State Fault Refusal :=
  if s.seeded then
    match bounded raw sgn (s.rangeMin w sgn) (s.rangeMax w sgn) s.engine with
    | .value v engine steps => .next (s.drew engine steps (widen sgn (BitVec.ofInt w v)))
    | .invalidRange => .next (s.raise .invalidRange)
    | .neverEnds => .next s.hang
  else .next (s.raise .notSeeded)

end Sys2Proof.Machine
end

