-- ==== Sys2Proof/Machine/CacheCommands.lean ====
section
/-! DEFINITION. The NEXT commands for widths 1 to 32 (42_subword_cache.md R206-R212). -/

namespace Sys2Proof.Machine

/-- NEXT.B (R206): 1 is true. -/
def execNextB (s : State) : Host.Outcome State Fault Refusal := nextDraw Engine.raw1 false s

/-- NEXT.U8 (R207). -/
def execNextU8 (s : State) : Host.Outcome State Fault Refusal := nextDraw Engine.raw8 false s

/-- NEXT.S8 (R208). -/
def execNextS8 (s : State) : Host.Outcome State Fault Refusal := nextDraw Engine.raw8 true s

/-- NEXT.U16 (R209). -/
def execNextU16 (s : State) : Host.Outcome State Fault Refusal := nextDraw Engine.raw16 false s

/-- NEXT.S16 (R210). -/
def execNextS16 (s : State) : Host.Outcome State Fault Refusal := nextDraw Engine.raw16 true s

/-- NEXT.U32 (R211). -/
def execNextU32 (s : State) : Host.Outcome State Fault Refusal := nextDraw Engine.raw32 false s

/-- NEXT.S32 (R212). -/
def execNextS32 (s : State) : Host.Outcome State Fault Refusal := nextDraw Engine.raw32 true s

end Sys2Proof.Machine
end

