-- ==== Sys2Proof/Machine/ContainerCommands.lean ====
section
/-! DEFINITION. The commands of 43_state_container.md: CAPTURE and RESTORE. -/

namespace Sys2Proof.Machine

/-- CAPTURE (R232): NotSeeded while unseeded, else the image of the EngineState is written to `SNAP0..SNAP7`. -/
def execCapture (s : State) : Host.Outcome State Fault Refusal :=
  if s.seeded then .next ({ s with snap := pack s.engine }).succeed else .next (s.raise .notSeeded)

/-- RESTORE (R233): a valid image replaces the whole EngineState; another raises InvalidState. It makes no draw (R234)
and needs no earlier seeding. -/
def execRestore (s : State) : Host.Outcome State Fault Refusal :=
  if s.snap.valid then .next ({ s with engine := s.snap.unpack }).succeed else .next (s.raise .invalidState)

end Sys2Proof.Machine
end

