-- ==== Sys2Proof/Machine/EngineCommands.lean ====
section
/-! DEFINITION. The commands of 40_engine.md: NOP, SEED, NEXT.U64, NEXT.S64. -/

namespace Sys2Proof.Machine

/-- NOP (R150): "does nothing but report success", seeded or not. -/
def execNop (s : State) : Host.Outcome State Fault Refusal := .next s.succeed

/-- SEED (R146): `SeedExpand(OPA)` becomes the EngineState, caches and `pending32` empty; InvalidSeed if all four words
are zero (kept although R147 shows it cannot occur, D31). `STEPCOUNT` and `RESULT` are unchanged. -/
def execSeed (s : State) : Host.Outcome State Fault Refusal :=
  let expanded := seedExpand s.opa
  if expanded.seeded then .next ({ s with engine := expanded }).succeed else .next (s.raise .invalidSeed)

/-- NEXT.U64 (R148): never through a cache. -/
def execNextU64 (s : State) : Host.Outcome State Fault Refusal := nextDraw Engine.raw64 false s

/-- NEXT.S64 (R149): the same bits. -/
def execNextS64 (s : State) : Host.Outcome State Fault Refusal := nextDraw Engine.raw64 true s

end Sys2Proof.Machine
end

