-- ==== Sys2Proof/Machine/RangeCommands.lean ====
section
/-! DEFINITION. The RANGE commands (41_bounded.md R178-R185): each is `Bounded_W` with its own width, signedness and raw
draw (R170, R175). -/

namespace Sys2Proof.Machine

/-- RANGE.U8 (R178). -/
def execRangeU8 (s : State) : Host.Outcome State Fault Refusal := rangeDraw Engine.raw8 false s

/-- RANGE.S8 (R179). -/
def execRangeS8 (s : State) : Host.Outcome State Fault Refusal := rangeDraw Engine.raw8 true s

/-- RANGE.U16 (R180). -/
def execRangeU16 (s : State) : Host.Outcome State Fault Refusal := rangeDraw Engine.raw16 false s

/-- RANGE.S16 (R181). -/
def execRangeS16 (s : State) : Host.Outcome State Fault Refusal := rangeDraw Engine.raw16 true s

/-- RANGE.U32 (R182). -/
def execRangeU32 (s : State) : Host.Outcome State Fault Refusal := rangeDraw Engine.raw32 false s

/-- RANGE.S32 (R183). -/
def execRangeS32 (s : State) : Host.Outcome State Fault Refusal := rangeDraw Engine.raw32 true s

/-- RANGE.U64 (R184). -/
def execRangeU64 (s : State) : Host.Outcome State Fault Refusal := rangeDraw Engine.raw64 false s

/-- RANGE.S64 (R185). -/
def execRangeS64 (s : State) : Host.Outcome State Fault Refusal := rangeDraw Engine.raw64 true s

end Sys2Proof.Machine
end

