-- ==== Sys2Proof/Machine/Dispatch.lean ====
section
/-! DEFINITION. One arm per command. `exec i s` is the end of command i on the state s it was accepted in: one indivisible
update (20_memory.md R87). -/

namespace Sys2Proof.Machine

def exec (i : Instr) (s : State) : Host.Outcome State Fault Refusal :=
  match i with
  | .nop => Sys2Proof.Machine.execNop s
  | .seed => Sys2Proof.Machine.execSeed s
  | .nextB => Sys2Proof.Machine.execNextB s
  | .nextU8 => Sys2Proof.Machine.execNextU8 s
  | .nextS8 => Sys2Proof.Machine.execNextS8 s
  | .nextU16 => Sys2Proof.Machine.execNextU16 s
  | .nextS16 => Sys2Proof.Machine.execNextS16 s
  | .nextU32 => Sys2Proof.Machine.execNextU32 s
  | .nextS32 => Sys2Proof.Machine.execNextS32 s
  | .nextU64 => Sys2Proof.Machine.execNextU64 s
  | .nextS64 => Sys2Proof.Machine.execNextS64 s
  | .rangeU8 => Sys2Proof.Machine.execRangeU8 s
  | .rangeS8 => Sys2Proof.Machine.execRangeS8 s
  | .rangeU16 => Sys2Proof.Machine.execRangeU16 s
  | .rangeS16 => Sys2Proof.Machine.execRangeS16 s
  | .rangeU32 => Sys2Proof.Machine.execRangeU32 s
  | .rangeS32 => Sys2Proof.Machine.execRangeS32 s
  | .rangeU64 => Sys2Proof.Machine.execRangeU64 s
  | .rangeS64 => Sys2Proof.Machine.execRangeS64 s
  | .capture => Sys2Proof.Machine.execCapture s
  | .restore => Sys2Proof.Machine.execRestore s

end Sys2Proof.Machine
end

