-- ==== Sys2Proof/Machine/HostPort.lean ====
section
/-! DEFINITION. One event at the block's boundary: a host write, a host read, one poll of `WAIT`, a reset
(20_memory.md R82-R93, 70_reset_and_hazards.md R290-R298). -/

namespace Sys2Proof.Machine

/-- The access is by the run's one host agent, the first that made an access (R93, R298); another agent's is refused. -/
def State.claim (s : State) (agent : Nat) : Except Refusal State :=
  match s.owner with
  | none => .ok { s with owner := some agent }
  | some first => if first = agent then .ok s else .error .secondHost

/-- One event has passed of those a command in progress lasts (R294). -/
def State.passEvent (s : State) : State :=
  match s.phase with
  | .idle => s
  | .running 0 => s
  | .running (n + 1) => { s with phase := .running n }
  | .hung => s

/-- A host read of a slot: its value, with no side effect on any register (R82, R86); while busy, a free value for
every register but `STATUS` (R297, D16). -/
def State.hostRead (s : State) (r : Reg) : State :=
  if s.busy && r.freeWhileBusy then
    { s with lastRead := some (Config.busyRead s.freeIndex), freeIndex := s.freeIndex + 1 }
  else { s with lastRead := some (s.readReg r) }

/-- A host write of a slot (R86): while busy it is discarded and sets `OVR` (R296). -/
def State.hostWrite (s : State) (v : Word) (r : Reg) : State :=
  if s.busy then s.overrun else s.writeReg v r

/-- Reset: "puts every register in the value of rule R49 and abandons any command in progress" (R290). What is not the
block's own stays: the events still to come, what the host has read, which agent it is, the next free value. -/
def State.resetBlock (s : State) : State :=
  { State.reset with host := s.host, lastRead := s.lastRead, owner := s.owner, freeIndex := s.freeIndex }

/-- A host access to the window: one agent (R298), one of the defined accesses (R85), then its effect. -/
def hostAccess (s : State) (agent addr size : Nat) (effect : State → Reg → State) :
    Host.Outcome State Fault Refusal :=
  match s.claim agent, accessTarget addr size with
  | .error e, _ => .refused e
  | .ok _, .error e => .refused e
  | .ok s', .ok r => .next (effect s'.passEvent r)

/-- The next event of the host's list, or, with none left, time passing. A `WAIT` stays at the head of the list until its
read of `STATUS` shows `BUSY` = 0 (R113). -/
def hostTurn (s : State) : Host.Outcome State Fault Refusal :=
  match s.host with
  | [] => .next s.passEvent
  | .write agent addr size v :: rest =>
    hostAccess { s with host := rest } agent addr size fun t r => t.hostWrite v r
  | .read agent addr size :: rest =>
    hostAccess { s with host := rest } agent addr size fun t r => t.hostRead r
  | .wait agent :: rest =>
    hostAccess { s with host := if s.busy then s.host else rest } agent Reg.status.addr 8 fun t r => t.hostRead r
  | .reset :: rest => .next ({ s with host := rest }).resetBlock

end Sys2Proof.Machine
end

