-- ==== Sys2Proof/Machine/Sequencer.lean ====
section
/-! DEFINITION. How a command in progress ends, and where its word stands (10_state.md R35, 30_encoding.md R106). -/

namespace Sys2Proof.Machine

/-- The command in `CMD` ends: decoded first, an illegal value raises IllegalCommand (R106, R265 item 1). `CMD`, `OPA`,
`OPB` and `SNAPn` still hold what they held when it was accepted, since writes while busy are dropped (R296). -/
def runCommand (s : State) : Host.Outcome State Fault Refusal :=
  match decode s.cmd with
  | .ok i => exec i s
  | .error _ => .next (s.raise .illegalCommand)

/-- The block with command word v accepted and about to end. -/
def State.commandDue (s : State) (v : Word) : State := { s with cmd := v, phase := .running 0 }

/-- The word `CMD` holds when the instruction whose table bits are `w` has been written; bits that do not fit in the one
64-bit write are no command, and stand as the illegal all-ones word. -/
def fetchWord (nbits w : Nat) : Word := (tableWord nbits w).getD (BitVec.allOnes 64)

/-- One step: the command in progress ends when its events have passed; before that, and while the block is idle or
hung, the next host event happens. -/
def advance (s : State) : Host.Outcome State Fault Refusal :=
  match s.phase with
  | .running 0 => runCommand s
  | .running (_ + 1) => hostTurn s
  | .idle => hostTurn s
  | .hung => hostTurn s

end Sys2Proof.Machine
end

