-- ==== Sys2Proof/Machine/Step.lean ====
section
/-! DEFINITION. One step of the machine. -/

namespace Sys2Proof.Machine

/-- One step: the end of the command in progress, or one host event (log entry 1). -/
def step (s : State) : Host.Outcome State Fault Refusal := advance s

/-- `s` with the instruction whose bits are `w` in `CMD`, accepted and due, so that the next step runs it. The block
fetches nothing (20_memory.md R92): this stands for a host's write of `CMD` whose latency has passed (log entry 4). -/
def State.withFetchWord (s : State) (nbits w : Nat) : State := s.commandDue (fetchWord nbits w)

end Sys2Proof.Machine
end

