-- ==== Sys2Proof/Machine/Listing.lean ====
section
/-! DEFINITION. The host's listing primitives and pseudo-instructions as host events (30_encoding.md R112-R114). -/

namespace Sys2Proof.Machine

/-- `WR <reg>, <v>` (R113). -/
def wr (agent : Nat) (r : Reg) (v : Word) : HostEvent := .write agent r.addr 8 v

/-- A negative decimal operand of `WR` "means its 64-bit two's-complement pattern" (R113). -/
def wrInt (agent : Nat) (r : Reg) (v : Int) : HostEvent := wr agent r (BitVec.ofInt 64 v)

/-- `RD <reg>` (R113). -/
def rd (agent : Nat) (r : Reg) : HostEvent := .read agent r.addr 8

/-- A mnemonic standing alone means `WR CMD, <its CMD value>` (R112, R113). -/
def command (agent : Nat) (i : Instr) : HostEvent := wr agent .cmd (encode i)

/-- `seed v` (R114). -/
def listSeed (agent : Nat) (v : Word) : List HostEvent :=
  [wr agent .opa v, command agent .seed, .wait agent]

/-- `draw.<m> -> x` (R114): i is the NEXT command. -/
def listDraw (agent : Nat) (i : Instr) : List HostEvent :=
  [command agent i, .wait agent, rd agent .result]

/-- `range.<T><W> a, b -> x` (R114): i is the RANGE command. -/
def listRange (agent : Nat) (i : Instr) (a b : Word) : List HostEvent :=
  [wr agent .opa a, wr agent .opb b, command agent i, .wait agent, rd agent .result]

/-- `SNAP0..SNAP7` in order. -/
def snapRegs : List Reg := [.snap0, .snap1, .snap2, .snap3, .snap4, .snap5, .snap6, .snap7]

/-- `save -> (v0..v7)` (R114). -/
def listSave (agent : Nat) : List HostEvent :=
  [command agent .capture, .wait agent] ++ snapRegs.map (rd agent)

/-- `load (v0..v7)` (R114). -/
def listLoad (agent : Nat) (m : Image) : List HostEvent :=
  (snapRegs.zip [m.snap0, m.snap1, m.snap2, m.snap3, m.snap4, m.snap5, m.snap6, m.snap7]).map
      (fun (r, v) => wr agent r v)
    ++ [command agent .restore, .wait agent]

/-- `err -> e` (R114): the read of `STATUS`. -/
def listErr (agent : Nat) : List HostEvent := [rd agent .status]

/-- `e <- st[7:4]` (R114). -/
def errOf (st : Word) : BitVec 4 := st.extractLsb' 4 4

end Sys2Proof.Machine
end

