-- ==== Sys2Proof/Safety.lean ====
section
/-! DEFINITION. What claims are stated in terms of: the classes of commands, the invariants of a state, the successive raw
draws of a redraw loop, what a RANGE command does, how many engine steps each command takes, and sequences of commands. -/

namespace Sys2Proof.Machine

/-! ### Classes of commands -/

/-- The width and signedness of a RANGE command (30_encoding.md R105). -/
def rangeForm : Instr → Option (Nat × Bool)
  | .rangeU8 => some (8, false)
  | .rangeS8 => some (8, true)
  | .rangeU16 => some (16, false)
  | .rangeS16 => some (16, true)
  | .rangeU32 => some (32, false)
  | .rangeS32 => some (32, true)
  | .rangeU64 => some (64, false)
  | .rangeS64 => some (64, true)
  | _ => none

/-- A NEXT command. -/
def isNext (i : Instr) : Bool :=
  i ∈ [.nextB, .nextU8, .nextS8, .nextU16, .nextS16, .nextU32, .nextS32, .nextU64, .nextS64]

/-- A RANGE command. -/
def isRange (i : Instr) : Bool := (rangeForm i).isSome

/-- A command that draws: NEXT or RANGE. -/
def isDraw (i : Instr) : Bool := isNext i || isRange i

/-- "NEXT.*, RANGE.* and CAPTURE need `SEEDED` = 1. SEED, RESTORE and NOP do not" (92_eei_decisions.md D19). -/
def needsSeed (i : Instr) : Bool := isDraw i || i == .capture

/-- The four sub-word caches (42_subword_cache.md R205). -/
inductive Cache where
  | bool
  | byte
  | word
  | half
  deriving DecidableEq, Repr

/-- The cache a command of each width draws from; a 64-bit draw has none (R205). -/
def cacheOf : Instr → Option Cache
  | .nextB => some .bool
  | .nextU8 => some .byte
  | .nextS8 => some .byte
  | .rangeU8 => some .byte
  | .rangeS8 => some .byte
  | .nextU16 => some .word
  | .nextS16 => some .word
  | .rangeU16 => some .word
  | .rangeS16 => some .word
  | .nextU32 => some .half
  | .nextS32 => some .half
  | .rangeU32 => some .half
  | .rangeS32 => some .half
  | _ => none

/-- Two engines hold the same in one cache. -/
def sameCache (c : Cache) (e f : Engine) : Prop :=
  match c with
  | .bool => e.boolRem = f.boolRem ∧ e.boolBits = f.boolBits
  | .byte => e.byteRem = f.byteRem ∧ e.byteBits = f.byteBits
  | .word => e.wordRem = f.wordRem ∧ e.wordBits = f.wordBits
  | .half => e.pending32 = f.pending32

/-- Two engines have the same permutation state. -/
def samePermutation (e f : Engine) : Prop := e.s0 = f.s0 ∧ e.s1 = f.s1 ∧ e.s2 = f.s2 ∧ e.s3 = f.s3

/-! ### Invariants -/

/-- The legal ranges of the counters (10_state.md R30). -/
def countersOk (e : Engine) : Prop := e.boolRem.toNat ≤ 64 ∧ e.byteRem.toNat ≤ 8 ∧ e.wordRem.toNat ≤ 4

/-- A buffer holds no bit beyond what its counter still grants (R213). -/
def buffersFit (e : Engine) : Prop :=
  e.boolBits.toNat < 2 ^ e.boolRem.toNat
    ∧ e.byteBits.toNat < 2 ^ (8 * e.byteRem.toNat)
    ∧ e.wordBits.toNat < 2 ^ (16 * e.wordRem.toNat)

/-- What every state of a run meets: the counters are in range, an unseeded block has the EngineState of reset, `ERR` is
one of the codes 0-5 (I7), and a block hangs only in a RANGE while seeded (I13). -/
def invariant (s : State) : Prop :=
  countersOk s.engine
    ∧ (s.seeded = false → s.engine = Engine.reset)
    ∧ s.err.toNat ≤ 5
    ∧ (s.phase = .hung → s.seeded = true ∧ ∃ i, decode s.cmd = .ok i ∧ isRange i = true)

/-- The next thing a step does is take a reset event. -/
def resetNext (s : State) : Prop := s.phase ≠ .running 0 ∧ ∃ rest, s.host = .reset :: rest

/-! ### Successive raw draws -/

/-- The engine before the k-th raw draw, counting from 0. -/
def drawEngine {w : Nat} (raw : Engine → Draw w) : Nat → Engine → Engine
  | 0, e => e
  | k + 1, e => drawEngine raw k (raw e).engine

/-- The k-th raw draw, counting from 0. -/
def drawAt {w : Nat} (raw : Engine → Draw w) (k : Nat) (e : Engine) : Draw w := raw (drawEngine raw k e)

/-- How many engine steps the first k raw draws cost (R213). -/
def drawSteps {w : Nat} (raw : Engine → Draw w) : Nat → Engine → Nat
  | 0, _ => 0
  | k + 1, e => (raw e).steps + drawSteps raw k (raw e).engine

/-- "while low < t" (R173): the raw draw x is drawn again. -/
def redraws {w : Nat} (range : Nat) (x : BitVec w) : Prop :=
  x.toNat * range % 2 ^ w < (2 ^ w - range) % range

/-- What 41_bounded.md R170, R171 and R173 say the RANGE command i of width w does on every seeded state, path by path;
x k is the k-th raw draw, and path 4 ends at the first x k that is not redrawn, whichever k that is. -/
def rangeMeaning (i : Instr) {w : Nat} (raw : Engine → Draw w) (sgn : Bool) : Prop :=
  ∀ s : State, s.seeded = true →
    let a : BitVec w := s.opa.extractLsb' 0 w
    let b : BitVec w := s.opb.extractLsb' 0 w
    let min : Int := if sgn then a.toInt else a.toNat
    let max : Int := if sgn then b.toInt else b.toNat
    let full : Prop :=
      if sgn then min = -(2 ^ (w - 1)) ∧ max = 2 ^ (w - 1) - 1 else min = 0 ∧ max = 2 ^ w - 1
    let extend : BitVec w → Word := fun v => if sgn then v.signExtend 64 else v.setWidth 64
    (min = max → exec i s = .next { s with result := extend a, err := 0, phase := .idle })
    ∧ (full → exec i s = .next { s with
        engine := (raw s.engine).engine
        stepCount := s.stepCount + BitVec.ofNat 64 (raw s.engine).steps
        result := extend (raw s.engine).value
        err := 0
        phase := .idle })
    ∧ (max < min → exec i s = .next { s with err := 2, phase := .idle })
    ∧ (∀ k, min < max → ¬full →
        let range := (max - min + 1).toNat
        (∀ j, j < k → redraws range (drawAt raw j s.engine).value) →
        ¬redraws range (drawAt raw k s.engine).value →
        exec i s = .next { s with
          engine := drawEngine raw (k + 1) s.engine
          stepCount := s.stepCount + BitVec.ofNat 64 (drawSteps raw (k + 1) s.engine)
          result := extend (BitVec.ofInt w
            (min + ((drawAt raw k s.engine).value.toNat * range / 2 ^ w : Nat)))
          err := 0
          phase := .idle })

/-- R300, I13: the RANGE command i hangs exactly on a seeded state, on path 4, when every raw draw is drawn again. -/
def rangeHangs (i : Instr) {w : Nat} (raw : Engine → Draw w) (sgn : Bool) : Prop :=
  ∀ s : State, exec i s = .next { s with phase := .hung } ↔
    s.seeded = true
      ∧ s.rangeMin w sgn < s.rangeMax w sgn
      ∧ ¬(s.rangeMin w sgn = rangeLo w sgn ∧ s.rangeMax w sgn = rangeHi w sgn)
      ∧ ∀ k, redraws (s.rangeMax w sgn - s.rangeMin w sgn + 1).toNat (drawAt raw k s.engine).value

/-! ### How many engine steps a command takes -/

/-- From s to t the permutation state went n engine steps on (R140), and `STEPCOUNT` went up by n mod 2^64 (R44). -/
def tookSteps (n : Nat) (s t : State) : Prop :=
  samePermutation t.engine (drawEngine Engine.step n s.engine) ∧ t.stepCount = s.stepCount + BitVec.ofNat 64 n

/-- A NEXT takes the engine steps of its one raw draw (R213), none while unseeded (R265). -/
def nextTook {w : Nat} (raw : Engine → Draw w) (s t : State) : Prop :=
  tookSteps (if s.seeded then (raw s.engine).steps else 0) s t

/-- A RANGE takes no engine step while unseeded, on paths 1 and 3 of R171, and where it hangs; those of one raw draw on
path 2; and those of 1 + k raw draws on path 4, k the index of the first draw that is not redrawn (R177). -/
def rangeTook {w : Nat} (raw : Engine → Draw w) (sgn : Bool) (s t : State) : Prop :=
  let min := s.rangeMin w sgn
  let max := s.rangeMax w sgn
  let full : Prop := min = rangeLo w sgn ∧ max = rangeHi w sgn
  let range := (max - min + 1).toNat
  (s.seeded = false ∨ min = max ∨ max < min ∨ t.phase = .hung → tookSteps 0 s t)
  ∧ (s.seeded = true → full → tookSteps (drawSteps raw 1 s.engine) s t)
  ∧ ∀ k, s.seeded = true → min < max → ¬full →
      (∀ j, j < k → redraws range (drawAt raw j s.engine).value) → ¬redraws range (drawAt raw k s.engine).value →
      tookSteps (drawSteps raw (k + 1) s.engine) s t

/-- SEED and RESTORE set the permutation state without an engine step, or leave it if they fail (R141, R44, R263). -/
def loadTook (s t : State) : Prop :=
  t.stepCount = s.stepCount ∧ (t.err ≠ 0 → samePermutation t.engine s.engine)

/-- What each command does to `S0..S3` and `STEPCOUNT`. -/
def commandTook (i : Instr) (s t : State) : Prop :=
  match i with
  | .nop => tookSteps 0 s t
  | .seed => loadTook s t
  | .nextB => nextTook Engine.raw1 s t
  | .nextU8 => nextTook Engine.raw8 s t
  | .nextS8 => nextTook Engine.raw8 s t
  | .nextU16 => nextTook Engine.raw16 s t
  | .nextS16 => nextTook Engine.raw16 s t
  | .nextU32 => nextTook Engine.raw32 s t
  | .nextS32 => nextTook Engine.raw32 s t
  | .nextU64 => nextTook Engine.raw64 s t
  | .nextS64 => nextTook Engine.raw64 s t
  | .rangeU8 => rangeTook Engine.raw8 false s t
  | .rangeS8 => rangeTook Engine.raw8 true s t
  | .rangeU16 => rangeTook Engine.raw16 false s t
  | .rangeS16 => rangeTook Engine.raw16 true s t
  | .rangeU32 => rangeTook Engine.raw32 false s t
  | .rangeS32 => rangeTook Engine.raw32 true s t
  | .rangeU64 => rangeTook Engine.raw64 false s t
  | .rangeS64 => rangeTook Engine.raw64 true s t
  | .capture => tookSteps 0 s t
  | .restore => loadTook s t

/-! ### Sequences of commands -/

/-- A host's use of one command: its operands, its image, its command (30_encoding.md R109). -/
structure Call where
  instr : Instr
  opa : Word
  opb : Word
  snap : Image
  deriving DecidableEq, Repr

/-- The state in which a call's operands are written and its command is about to end. -/
def State.due (s : State) (c : Call) : State :=
  { s with opa := c.opa, opb := c.opb, snap := c.snap, cmd := encode c.instr, phase := .running 0 }

/-- What a host sees of each call: `ERR`, and the drawn value where one was drawn. The sequence ends at a command that
never ends. -/
def answers : List Call → State → List (BitVec 4 × Option Word)
  | [], _ => []
  | c :: rest, s =>
    match exec c.instr (s.due c) with
    | .next t =>
      if t.busy then []
      else (t.err, if isDraw c.instr ∧ t.err = 0 then some t.result else none) :: answers rest t
    | .fault _ => []
    | .refused _ => []

/-- The `RESULT` after each of a list of commands, and the state they leave, for the spec's worked examples. -/
def runCommands : List Instr → State → List Word × State
  | [], s => ([], s)
  | i :: rest, s =>
    match exec i s with
    | .next t => let (rs, u) := runCommands rest t; (t.result :: rs, u)
    | .fault _ => ([], s)
    | .refused _ => ([], s)

/-- The state SEED with `OPA` = 1 leaves from reset, its words as R146's worked example prints them. -/
def seedOne : State :=
  { State.reset with
    opa := 1
    engine := { Engine.reset with
      s0 := 0x910A2DEC89025CC1
      s1 := 0xBEEB8DA1658EEC67
      s2 := 0xF893A2EEFB32555E
      s3 := 0x71C18690EE42C90B } }

/-- `seedOne` with the operands of a RANGE. -/
def seedOneWith (min max : Int) : State :=
  { seedOne with opa := BitVec.ofInt 64 min, opb := BitVec.ofInt 64 max }

end Sys2Proof.Machine
end

