-- ==== Sys2Proof/Certificates/Slice0/Obligations.lean ====
section
/-! DEFINITION. What is to be proved of the model. Each statement names the rule of spec/ it formalises. -/

open Sys2Proof Sys2Proof.Machine

/-! ### Encoding (30_encoding.md) -/

/-- R105: the legal values of `CMD` are exactly these 21, each with its command. -/
def Obligations.LegalCommandsAreTheTable : Prop :=
  ∀ (v : Word) (i : Instr), decode v = .ok i ↔
    (v, i) ∈ [
      ((0x00 : Word), Instr.nop), (0x01, .seed), (0x02, .nextB), (0x12, .nextU8), (0x92, .nextS8),
      (0x22, .nextU16), (0xA2, .nextS16), (0x32, .nextU32), (0xB2, .nextS32), (0x42, .nextU64), (0xC2, .nextS64),
      (0x13, .rangeU8), (0x93, .rangeS8), (0x23, .rangeU16), (0xA3, .rangeS16), (0x33, .rangeU32),
      (0xB3, .rangeS32), (0x43, .rangeU64), (0xC3, .rangeS64), (0x04, .capture), (0x05, .restore)]

/-- Decoding and encoding agree, both ways: every command's word decodes to it, and no other word does. -/
def Obligations.DecodeInvertsEncode : Prop :=
  ∀ (v : Word) (i : Instr), decode v = .ok i ↔ v = encode i

/-- R107: exactly the values the rule lists are illegal, and such a command sets `STATUS.ERR` to 5 and changes nothing
else (`BUSY` returns to 0). -/
def Obligations.IllegalValuesSetErrFive : Prop :=
  ∀ v : Word,
    let op := v.extractLsb' 0 4
    let wid := v.extractLsb' 4 3
    let sgn := v.extractLsb' 7 1
    let listed : Prop :=
      v.extractLsb' 8 56 ≠ 0
        ∨ 6 ≤ op.toNat
        ∨ ((op = 2 ∨ op = 3) ∧ 5 ≤ wid.toNat)
        ∨ (op = 2 ∧ wid = 0 ∧ sgn = 1)
        ∨ (op = 3 ∧ wid = 0)
        ∨ ((op = 0 ∨ op = 1 ∨ op = 4 ∨ op = 5) ∧ (wid ≠ 0 ∨ sgn ≠ 0))
    (listed ↔ ¬∃ i, decode v = .ok i)
    ∧ ∀ s : State, listed → s.cmd = v → s.phase = .running 0 →
        step s = .next { s with err := 5, phase := .idle }

/-- Words written out field by field, `{RSV, SGN, WID, OP}` (R101), decode to the commands they stand for. -/
def Obligations.SampleWordsDecode : Prop :=
  decode ((0 : BitVec 56) ++ 0b0#1 ++ 0b000#3 ++ 0b0001#4) = .ok .seed
    ∧ decode ((0 : BitVec 56) ++ 0b1#1 ++ 0b010#3 ++ 0b0010#4) = .ok .nextS16
    ∧ decode ((0 : BitVec 56) ++ 0b0#1 ++ 0b100#3 ++ 0b0010#4) = .ok .nextU64
    ∧ decode ((0 : BitVec 56) ++ 0b1#1 ++ 0b011#3 ++ 0b0011#4) = .ok .rangeS32
    ∧ decode ((0 : BitVec 56) ++ 0b0#1 ++ 0b000#3 ++ 0b0101#4) = .ok .restore

/-- R83: byte lane k carries bits [8k+7:8k] of the register, and the eight lanes carry the whole register. -/
def Obligations.ByteLanesAreLittleEndian : Prop :=
  (∀ (s : State) (r : Reg) (k : Nat), k < 8 →
      (s.readLane r k).toNat = (s.readReg r).toNat / 2 ^ (8 * k) % 256)
    ∧ ∀ v : Word, (lanes v).length = 8 ∧ (∀ k, k < 8 → (lanes v)[k]? = some (v.extractLsb' (8 * k) 8))
        ∧ ofLanes (lanes v) = some v

/-! ### Steps -/

/-- When a command is due and the word in `CMD` decodes, the step is that command's meaning. That a step is the end of a
command is the model's choice (log entry 1). -/
def Obligations.StepRunsDecodedCommand : Prop :=
  ∀ (s : State) (i : Instr), s.phase = .running 0 → decode s.cmd = .ok i → step s = exec i s

/-- Steps in which the host does nothing. An idle block "waits for a host write to `CMD`" and stays as it is (R291, R275);
so does a hung one (I13). A command accepted with n events to pass is due after exactly n such steps, and its meaning is
the step after them (R40, R294). The count of events and the phase are the model's choice (log entries 1 and 3), and so is
holding a hang as a phase (log entry 2). -/
def Obligations.StepsWithoutHostEvents : Prop :=
  (∀ s : State, s.phase = .idle ∨ s.phase = .hung → s.host = [] → step s = .next s)
    ∧ ∀ (n : Nat) (s : State) (i : Instr), s.phase = .running n → s.host = [] → decode s.cmd = .ok i →
        core.run n s = .next { s with phase := .running 0 }
          ∧ core.run (n + 1) s = exec i { s with phase := .running 0 }

/-! ### The register window (10_state.md Part 2, 20_memory.md) -/

/-- R36: the fields of `STATUS`, and what a host write of it changes. -/
def Obligations.StatusFields : Prop :=
  ∀ s : State,
    s.status.getLsbD 0 = s.busy
      ∧ s.status.getLsbD 1 = s.seeded
      ∧ s.status.extractLsb' 2 2 = 0
      ∧ s.status.extractLsb' 4 4 = s.err
      ∧ s.status.getLsbD 8 = s.ovr
      ∧ s.status.extractLsb' 9 55 = 0
      ∧ ∀ v : Word, s.hostWrite v .status =
          if s.busy then { s with ovr := true } else { s with ovr := s.ovr && !v.getLsbD 8 }

/-- The offsets of the sixteen slots (R34): an aligned 8-byte access at `BASE` plus its offset reaches the slot, and
every aligned offset below 128 is the offset of a slot, for every `BASE` that is a multiple of 128 (R81, log entry 11). -/
def Obligations.WindowMap : Prop :=
  ([Reg.cmd, .status, .opa, .opb, .result, .stepCount, .reserved30, .reserved38, .snap0, .snap1, .snap2, .snap3, .snap4,
      .snap5, .snap6, .snap7].map Reg.offset
    = [0x00, 0x08, 0x10, 0x18, 0x20, 0x28, 0x30, 0x38, 0x40, 0x48, 0x50, 0x58, 0x60, 0x68, 0x70, 0x78])
    ∧ Config.base % 128 = 0
    ∧ (∀ r : Reg, accessTarget (Config.base + r.offset) 8 = .ok r)
    ∧ ∀ off, off < 128 → off % 8 = 0 → ∃ r : Reg, r.offset = off

/-- R85: an access that is not 8 bytes wide, not aligned, or outside the window is refused, whatever the block is doing;
the 64-bit aligned accesses inside it are not refused for their form. -/
def Obligations.UndefinedAccessIsRefused : Prop :=
  ∀ (s : State) (rest : List HostEvent) (agent addr size : Nat) (v : Word),
    s.phase ≠ .running 0 →
    (s.host = .write agent addr size v :: rest ∨ s.host = .read agent addr size :: rest) →
    (s.owner = none ∨ s.owner = some agent) →
    if addr < Config.base ∨ Config.base + 128 ≤ addr then step s = .refused .outsideWindow
    else if size ≠ 8 then step s = .refused .accessWidth
    else if addr % 8 ≠ 0 then step s = .refused .misaligned
    else ∃ t, step s = .next t

/-- R298: once one agent has made an access, an access of another agent is refused, and no step changes which agent the
run's host is. That the first agent to make an access is the host, across a reset too, is the model's choice (log
entry 6). -/
def Obligations.SecondHostIsRefused : Prop :=
  (∀ (s : State) (first agent addr size : Nat) (v : Word) (rest : List HostEvent),
      s.phase ≠ .running 0 → s.owner = some first → agent ≠ first →
      (s.host = .write agent addr size v :: rest ∨ s.host = .read agent addr size :: rest
        ∨ s.host = .wait agent :: rest) →
      step s = .refused .secondHost)
    ∧ ∀ (s t : State) (first : Nat), s.owner = some first → step s = .next t → t.owner = some first

/-- R86, writes while idle: `CMD` stores the value and starts a command; `STATUS` with bit 8 set clears `OVR`; `OPA`,
`OPB`, `SNAPn` store the value; `RESULT`, `STEPCOUNT` and the reserved offsets do nothing. How a started command is held,
and what the model's own fields become, is the model's choice (log entries 1, 3, 4, 6 and 7). -/
def Obligations.WritesWhileIdle : Prop :=
  ∀ (s : State) (rest : List HostEvent) (agent : Nat) (r : Reg) (v : Word),
    s.phase = .idle → s.host = .write agent r.addr 8 v :: rest → (s.owner = none ∨ s.owner = some agent) →
    let u : State := { s with host := rest, owner := some agent }
    step s = .next (match r with
      | .cmd => { u with
          cmd := v, phase := .running (Config.latency s.freeIndex), freeIndex := s.freeIndex + 1 }
      | .status => { u with ovr := if v.getLsbD 8 then false else s.ovr }
      | .opa => { u with opa := v }
      | .opb => { u with opb := v }
      | .result => u
      | .stepCount => u
      | .reserved30 => u
      | .reserved38 => u
      | .snap0 => { u with snap := { s.snap with snap0 := v } }
      | .snap1 => { u with snap := { s.snap with snap1 := v } }
      | .snap2 => { u with snap := { s.snap with snap2 := v } }
      | .snap3 => { u with snap := { s.snap with snap3 := v } }
      | .snap4 => { u with snap := { s.snap with snap4 := v } }
      | .snap5 => { u with snap := { s.snap with snap5 := v } }
      | .snap6 => { u with snap := { s.snap with snap6 := v } }
      | .snap7 => { u with snap := { s.snap with snap7 := v } })

/-- A read while idle returns the register and changes no register (R34, R82, R46). That the value returned stands in
`lastRead`, and what `host` and `owner` become, is the model's choice (log entries 4 to 6). -/
def Obligations.ReadsWhileIdle : Prop :=
  ∀ (s : State) (rest : List HostEvent) (agent : Nat) (r : Reg),
    s.phase = .idle → s.host = .read agent r.addr 8 :: rest → (s.owner = none ∨ s.owner = some agent) →
    step s = .next { s with
      host := rest
      owner := some agent
      lastRead := some (match r with
        | .cmd => s.cmd
        | .status => s.status
        | .opa => s.opa
        | .opb => s.opb
        | .result => s.result
        | .stepCount => s.stepCount
        | .reserved30 => 0
        | .reserved38 => 0
        | .snap0 => s.snap.snap0
        | .snap1 => s.snap.snap1
        | .snap2 => s.snap.snap2
        | .snap3 => s.snap.snap3
        | .snap4 => s.snap.snap4
        | .snap5 => s.snap.snap5
        | .snap6 => s.snap.snap6
        | .snap7 => s.snap.snap7) }

/-- R296: a write that arrives while `BUSY` = 1 is discarded, whatever register it targets, and sets `OVR`; the command
in progress goes on unchanged. That one event of the command's latency passes, that a hang is a phase and
stays one, and what `host` and `owner` become is the model's choice (log entries 3, 2, 4 and 6). -/
def Obligations.WriteWhileBusyIsDropped : Prop :=
  ∀ (s : State) (rest : List HostEvent) (agent : Nat) (r : Reg) (v : Word),
    s.host = .write agent r.addr 8 v :: rest → (s.owner = none ∨ s.owner = some agent) →
    (∀ n, s.phase = .running (n + 1) →
      step s = .next { s with host := rest, owner := some agent, ovr := true, phase := .running n })
    ∧ (s.phase = .hung → step s = .next { s with host := rest, owner := some agent, ovr := true })

/-- R297, D16: while `BUSY` = 1, `STATUS` reads correctly and every other register reads as a free value (this holds for
every value of it); no read changes a register of the block. The reserved slots, no registers, read as 0 (R46). That the
registers beyond R297's own list are `OPA` and `OPB` is read from D16 (log entry 8). That one event of the command's latency
passes, that a hang is a phase and stays one, and what the model's own fields become (`host`, `owner`, `lastRead`,
`freeIndex`) is the model's choice (log entries 3, 2 and 4 to 7). -/
def Obligations.ReadWhileBusy : Prop :=
  ∀ (s : State) (rest : List HostEvent) (agent : Nat) (r : Reg),
    s.busy = true → s.phase ≠ .running 0 →
    s.host = .read agent r.addr 8 :: rest → (s.owner = none ∨ s.owner = some agent) →
    let u : State := { s with
      host := rest
      owner := some agent
      phase := match s.phase with
        | .running (n + 1) => .running n
        | p => p }
    step s = .next (
      if r = .status then { u with lastRead := some s.status }
      else if r = .reserved30 ∨ r = .reserved38 then { u with lastRead := some 0 }
      else { u with lastRead := some (Config.busyRead s.freeIndex), freeIndex := s.freeIndex + 1 })

/-- `WAIT` (R113) repeats its read of `STATUS` while it shows `BUSY` = 1 and ends when it shows 0. That each read is one
event of the command's latency, that a hang is a phase and stays one, and what the model's own fields become is the model's
choice (log entries 3, 2 and 4 to 6). -/
def Obligations.WaitPollsStatus : Prop :=
  ∀ (s : State) (rest : List HostEvent) (agent : Nat),
    s.host = .wait agent :: rest → (s.owner = none ∨ s.owner = some agent) →
    (s.phase = .idle → step s = .next { s with
      host := rest, owner := some agent, lastRead := some s.status })
    ∧ (∀ n, s.phase = .running (n + 1) → step s = .next { s with
      owner := some agent, phase := .running n, lastRead := some s.status })
    ∧ (s.phase = .hung → step s = .next { s with owner := some agent, lastRead := some s.status })

/-- R39: exactly when `OVR` is set after a step, in terms of the event the step takes. -/
def Obligations.OverrunFlag : Prop :=
  ∀ s t : State, step s = .next t →
    (t.ovr = true ↔
      if s.phase = .running 0 then s.ovr = true
      else match s.host with
        | [] => s.ovr = true
        | .write _ addr _ v :: _ =>
          s.busy = true ∨ (s.ovr = true ∧ ¬(addr = Reg.status.addr ∧ v.getLsbD 8 = true))
        | .read _ _ _ :: _ => s.ovr = true
        | .wait _ :: _ => s.ovr = true
        | .reset :: _ => False)

/-- Frame of a host access: only a command and a reset change the live EngineState, `ERR`, `RESULT` and `STEPCOUNT`
(R38, R43, R44, R47). -/
def Obligations.HostAccessFrame : Prop :=
  ∀ s t : State, s.phase ≠ .running 0 → ¬resetNext s → step s = .next t →
    t.engine = s.engine ∧ t.err = s.err ∧ t.result = s.result ∧ t.stepCount = s.stepCount
      ∧ (s.phase ≠ .idle → t.cmd = s.cmd ∧ t.opa = s.opa ∧ t.opb = s.opb ∧ t.snap = s.snap)

/-- R47: the EngineState is hidden. Two blocks that differ only in their caches, or in a permutation state that is
non-zero in both, show a host the same in every access. That what a read returns stands in `lastRead` is the model's choice (log entry 5). -/
def Obligations.EngineIsHiddenFromAccesses : Prop :=
  ∀ (s : State) (f : Engine), s.phase ≠ .running 0 → f.seeded = s.seeded →
    match step s, step { s with engine := f } with
    | .next t, .next t' => t'.lastRead = t.lastRead ∧ t' = { t with engine := t'.engine }
    | .refused r, .refused r' => r = r'
    | _, _ => False

/-! ### Reset (70_reset_and_hazards.md) -/

/-- R49: every piece of state after reset. -/
def Obligations.ResetValues : Prop :=
  let s := State.reset
  (s.engine.s0 = 0 ∧ s.engine.s1 = 0 ∧ s.engine.s2 = 0 ∧ s.engine.s3 = 0)
    ∧ (s.engine.boolRem = 0 ∧ s.engine.boolBits = 0)
    ∧ (s.engine.byteRem = 0 ∧ s.engine.byteBits = 0)
    ∧ (s.engine.wordRem = 0 ∧ s.engine.wordBits = 0)
    ∧ (s.engine.p32Valid = 0 ∧ s.engine.p32Value = 0)
    ∧ s.cmd = 0
    ∧ (s.busy = false ∧ s.seeded = false ∧ s.err = 0 ∧ s.ovr = false)
    ∧ (s.opa = 0 ∧ s.opb = 0 ∧ s.result = 0)
    ∧ s.stepCount = 0
    ∧ (s.snap.snap0 = 0 ∧ s.snap.snap1 = 0 ∧ s.snap.snap2 = 0 ∧ s.snap.snap3 = 0 ∧ s.snap.snap4 = 0
      ∧ s.snap.snap5 = 0 ∧ s.snap.snap6 = 0 ∧ s.snap.snap7 = 0)

/-- A reset, in any state in which no command ends first, puts every register at its value of R49 and abandons a command
in progress, one that would never end too (R290, R291); the block is then idle and `STATUS` reads 0. That the model's
own fields stay is its choice (log entries 4 to 7). -/
def Obligations.ResetAbandonsEverything : Prop :=
  ∀ (s : State) (rest : List HostEvent), s.phase ≠ .running 0 → s.host = .reset :: rest →
    ∃ t, step s = .next t
      ∧ t = { State.reset with
          host := rest, lastRead := s.lastRead, owner := s.owner, freeIndex := s.freeIndex }
      ∧ t.status = 0

/-- A command that never ends keeps `BUSY` = 1: after any number of steps without a reset event the block is still hung,
with the same engine and the same command (R300, I13). The phase of a hang is the model's choice (log entry 2). -/
def Obligations.OnlyResetEndsAHang : Prop :=
  ∀ (k : Nat) (s t : State), s.phase = .hung → (.reset ∉ s.host) → core.run k s = .next t →
    t.phase = .hung ∧ t.busy = true ∧ t.engine = s.engine ∧ t.cmd = s.cmd ∧ t.err = s.err ∧ t.result = s.result

/-! ### Seed Expander and Core Engine (40_engine.md) -/

/-- R140: one engine step, statement for statement, with `rotl` the rotation of R12; NEXT.U64 returns its value and counts
it, and every command that draws has first checked `SEEDED`. -/
def Obligations.EngineStepUpdate : Prop :=
  (∀ e : Engine,
    let r := ((e.s1 * 5).rotateLeft 7) * 9
    let s2 := e.s2 ^^^ e.s0
    let s3 := e.s3 ^^^ e.s1
    let s1 := e.s1 ^^^ s2
    let s0 := e.s0 ^^^ s3
    e.step.value = r
      ∧ e.step.engine = { e with s0 := s0, s1 := s1, s2 := s2 ^^^ (e.s1 <<< 17), s3 := s3.rotateLeft 45 }
      ∧ e.step.steps = 1)
    ∧ (∀ (a : Word) (k : Nat), 0 < k → k < 64 → rotl a k = a.rotateLeft k)
    ∧ (∀ s : State, s.seeded = true → ∃ t, exec .nextU64 s = .next t ∧ t.engine = s.engine.step.engine
        ∧ t.result = s.engine.step.value ∧ t.stepCount = s.stepCount + 1)
    ∧ ∀ (i : Instr) (s : State), isDraw i = true → s.seeded = false →
        exec i s = .next { s with err := 4, phase := .idle }

/-- R141, R44, with the counts of R177 and R213 (in part the spec's own inferences): beside SEED, RESTORE and reset,
`S0..S3` change only by engine steps, and `STEPCOUNT` goes up, mod 2^64, by exactly the number of those steps. The number
is fixed: none in a step that takes a host event or in which time passes, none for an illegal value, and for each command
as `commandTook` says. That a RANGE that hangs leaves `S0..S3` and `STEPCOUNT` is the model's choice (log entry 2). -/
def Obligations.OnlyCountedStepsChangeThePermutation : Prop :=
  ∀ s t : State, step s = .next t → ¬resetNext s →
    if s.phase = .running 0 then
      match decode s.cmd with
      | .ok i => commandTook i s t
      | .error _ => tookSteps 0 s t
    else tookSteps 0 s t

/-- R142 (the spec's own inference, "[derived: from rule R140]"): the step maps a non-zero permutation state to a non-zero
one and the all-zero state to itself, its inverse is the one the rule writes out, and the update is linear over GF(2). -/
def Obligations.EngineStepIsInvertible : Prop :=
  (∀ e : Engine, e.step.engine.seeded = e.seeded)
    ∧ (∀ e : Engine,
        let n := e.step.engine
        let b := n.s3.rotateRight 45
        let y := n.s1 ^^^ n.s2
        let s1 := y ^^^ (y <<< 17) ^^^ (y <<< 34) ^^^ (y <<< 51)
        let s0 := n.s0 ^^^ b
        b = e.s3 ^^^ e.s1 ∧ y = e.s1 ^^^ (e.s1 <<< 17)
          ∧ e.s0 = s0 ∧ e.s1 = s1 ∧ e.s2 = n.s1 ^^^ s1 ^^^ s0 ∧ e.s3 = b ^^^ s1)
    ∧ (∀ x y : Word, y = x ^^^ (x <<< 17) ↔ x = y ^^^ (y <<< 17) ^^^ (y <<< 34) ^^^ (y <<< 51))
    ∧ ∀ e f g : Engine,
        g.s0 = e.s0 ^^^ f.s0 → g.s1 = e.s1 ^^^ f.s1 → g.s2 = e.s2 ^^^ f.s2 → g.s3 = e.s3 ^^^ f.s3 →
        g.step.engine.s0 = e.step.engine.s0 ^^^ f.step.engine.s0
          ∧ g.step.engine.s1 = e.step.engine.s1 ^^^ f.step.engine.s1
          ∧ g.step.engine.s2 = e.step.engine.s2 ^^^ f.step.engine.s2
          ∧ g.step.engine.s3 = e.step.engine.s3 ^^^ f.step.engine.s3

/-- R146, R144, R145: SEED expands `OPA` into the four words, empties every cache, and leaves everything else; if the four
words were all zero it would raise InvalidSeed. The arrangement of `Mix64` is the spec's general knowledge (log entry 9). -/
def Obligations.SeedCommand : Prop :=
  let mix : Word → Word := fun z =>
    let a := (z ^^^ (z >>> 30)) * 0xBF58476D1CE4E5B9
    let b := (a ^^^ (a >>> 27)) * 0x94D049BB133111EB
    b ^^^ (b >>> 31)
  let g : Word := 0x9E3779B97F4A7C15
  encode .seed = 0x01
    ∧ (∀ s : State,
      let a := mix (s.opa + g)
      let b := mix (s.opa + g + g)
      let c := mix (s.opa + g + g + g)
      let d := mix (s.opa + g + g + g + g)
      exec .seed s = .next (
        if a = 0 ∧ b = 0 ∧ c = 0 ∧ d = 0 then { s with err := 1, phase := .idle }
        else { s with
          engine := {
            s0 := a, s1 := b, s2 := c, s3 := d
            boolRem := 0, boolBits := 0, byteRem := 0, byteBits := 0, wordRem := 0, wordBits := 0
            pending32 := none }
          err := 0
          phase := .idle }))
    ∧ exec .seed { State.reset with opa := 1 } = .next seedOne

/-- R147 (the spec's own inference, "[derived: from rule R144 and rule R145]", and log entry 9): SEED never raises
InvalidSeed. `Mix64` is a bijection, the four accumulator values are pairwise distinct, at most one of the four outputs
is 0, and so SEED succeeds on every state. -/
def Obligations.SeedNeverFails : Prop :=
  Function.Bijective mix64
    ∧ (∀ seed : Word, [seed + 0x9E3779B97F4A7C15, seed + 2 * 0x9E3779B97F4A7C15, seed + 3 * 0x9E3779B97F4A7C15,
        seed + 4 * 0x9E3779B97F4A7C15].Nodup)
    ∧ (∀ seed : Word, ([(seedExpand seed).s0, (seedExpand seed).s1, (seedExpand seed).s2, (seedExpand seed).s3].filter
        (· = 0)).length ≤ 1)
    ∧ ∀ s : State, exec .seed s = .next { s with engine := seedExpand s.opa, err := 0, phase := .idle }

/-- R150: NOP writes `ERR` = 0 and nothing else, seeded or not. -/
def Obligations.NopCommand : Prop :=
  encode .nop = 0x00
    ∧ (∀ s : State, exec .nop s = .next { s with err := 0, phase := .idle })
    ∧ exec .nop { State.reset with err := 2 } = .next State.reset

/-- R148, R149: the 64-bit draws go directly to the Core Engine; caches and a pending half are not touched; a RANGE over the
full range is the same draw. -/
def Obligations.Next64Commands : Prop :=
  encode .nextU64 = 0x42 ∧ encode .nextS64 = 0xC2
    ∧ (∀ s : State, s.seeded = true →
        let t : State := { s with
          engine := s.engine.step.engine
          stepCount := s.stepCount + 1
          result := s.engine.step.value
          err := 0
          phase := .idle }
        exec .nextU64 s = .next t ∧ exec .nextS64 s = .next t
          ∧ t.engine.boolRem = s.engine.boolRem ∧ t.engine.boolBits = s.engine.boolBits
          ∧ t.engine.byteRem = s.engine.byteRem ∧ t.engine.byteBits = s.engine.byteBits
          ∧ t.engine.wordRem = s.engine.wordRem ∧ t.engine.wordBits = s.engine.wordBits
          ∧ t.engine.pending32 = s.engine.pending32)
    ∧ (∀ s : State,
        (s.opa = 0 → s.opb = 0xFFFFFFFFFFFFFFFF → exec .rangeU64 s = exec .nextU64 s)
          ∧ (s.opa = 0x8000000000000000 → s.opb = 0x7FFFFFFFFFFFFFFF → exec .rangeS64 s = exec .nextS64 s))
    ∧ (∀ s : State, s.seeded = false →
        exec .nextU64 s = .next { s with err := 4, phase := .idle }
          ∧ exec .nextS64 s = .next { s with err := 4, phase := .idle })
    ∧ (runCommands [.nextU64, .nextU64, .nextU64] seedOne).1
        = [0xB3F2AF6D0FC710C5, 0x853B559647364CEA, 0x92F89756082A4514]
    ∧ (runCommands [.nextS64] seedOne).1 = [BitVec.ofInt 64 (-5480124913605472059)]

/-! ### Sub-word Bit Cache (42_subword_cache.md) -/

/-- R206, R200: NEXT.B takes the lowest bit of the 1-bit cache, refilled with 64 bits of one engine step when empty. -/
def Obligations.NextBoolCommand : Prop :=
  encode .nextB = 0x02
    ∧ (∀ s : State, s.seeded = true →
        let e := s.engine
        let full := if e.boolRem = 0 then { e.step.engine with boolRem := 64, boolBits := e.step.value } else e
        exec .nextB s = .next { s with
          engine := { full with boolRem := full.boolRem - 1, boolBits := full.boolBits >>> 1 }
          stepCount := if e.boolRem = 0 then s.stepCount + 1 else s.stepCount
          result := if full.boolBits.getLsbD 0 then 1 else 0
          err := 0
          phase := .idle })
    ∧ (∀ s : State, s.seeded = false → exec .nextB s = .next { s with err := 4, phase := .idle })
    ∧ (let r := runCommands (List.replicate 10 .nextB) seedOne
       r.1 = [1, 0, 1, 0, 0, 0, 1, 1, 0, 0] ∧ r.2.engine.boolRem = 54 ∧ r.2.engine.boolBits = 0x002CFCABDB43F1C4
         ∧ r.2.stepCount = 1)

/-- R207, R208, R201: NEXT.U8 and NEXT.S8 take the lowest 8 bits of the 8-bit cache they share, refilled with 8 units; the
RANGE commands of the width, over the full range, take the same unit of the same cache. -/
def Obligations.Next8Commands : Prop :=
  encode .nextU8 = 0x12 ∧ encode .nextS8 = 0x92
    ∧ (∀ s : State, s.seeded = true →
        let e := s.engine
        let full := if e.byteRem = 0 then { e.step.engine with byteRem := 8, byteBits := e.step.value } else e
        let x : BitVec 8 := full.byteBits.extractLsb' 0 8
        let t : State := { s with
          engine := { full with byteRem := full.byteRem - 1, byteBits := full.byteBits >>> 8 }
          stepCount := if e.byteRem = 0 then s.stepCount + 1 else s.stepCount
          err := 0
          phase := .idle }
        exec .nextU8 s = .next { t with result := x.setWidth 64 }
          ∧ exec .nextS8 s = .next { t with result := x.signExtend 64 })
    ∧ (∀ s : State,
        (s.opa.extractLsb' 0 8 = 0 → s.opb.extractLsb' 0 8 = 0xFF → exec .rangeU8 s = exec .nextU8 s)
          ∧ (s.opa.extractLsb' 0 8 = 0x80 → s.opb.extractLsb' 0 8 = 0x7F → exec .rangeS8 s = exec .nextS8 s))
    ∧ (∀ s : State, s.seeded = false →
        exec .nextU8 s = .next { s with err := 4, phase := .idle }
          ∧ exec .nextS8 s = .next { s with err := 4, phase := .idle })
    ∧ (let r := runCommands (List.replicate 10 .nextU8) seedOne
       r.1 = [0xC5, 0x10, 0xC7, 0x0F, 0x6D, 0xAF, 0xF2, 0xB3, 0xEA, 0x4C] ∧ r.2.engine.byteRem = 6
         ∧ r.2.engine.byteBits = 0x0000853B55964736 ∧ r.2.stepCount = 2)
    ∧ (runCommands (List.replicate 3 .nextS8) seedOne).1
        = [BitVec.ofInt 64 (-59), 16, BitVec.ofInt 64 (-57)]

/-- R209, R210, R202: NEXT.U16 and NEXT.S16 take the lowest 16 bits of the 16-bit cache they share, refilled with 4
units; so do the RANGE commands of the width over the full range. -/
def Obligations.Next16Commands : Prop :=
  encode .nextU16 = 0x22 ∧ encode .nextS16 = 0xA2
    ∧ (∀ s : State, s.seeded = true →
        let e := s.engine
        let full := if e.wordRem = 0 then { e.step.engine with wordRem := 4, wordBits := e.step.value } else e
        let x : BitVec 16 := full.wordBits.extractLsb' 0 16
        let t : State := { s with
          engine := { full with wordRem := full.wordRem - 1, wordBits := full.wordBits >>> 16 }
          stepCount := if e.wordRem = 0 then s.stepCount + 1 else s.stepCount
          err := 0
          phase := .idle }
        exec .nextU16 s = .next { t with result := x.setWidth 64 }
          ∧ exec .nextS16 s = .next { t with result := x.signExtend 64 })
    ∧ (∀ s : State,
        (s.opa.extractLsb' 0 16 = 0 → s.opb.extractLsb' 0 16 = 0xFFFF → exec .rangeU16 s = exec .nextU16 s)
          ∧ (s.opa.extractLsb' 0 16 = 0x8000 → s.opb.extractLsb' 0 16 = 0x7FFF → exec .rangeS16 s = exec .nextS16 s))
    ∧ (∀ s : State, s.seeded = false →
        exec .nextU16 s = .next { s with err := 4, phase := .idle }
          ∧ exec .nextS16 s = .next { s with err := 4, phase := .idle })
    ∧ (let r := runCommands (List.replicate 6 .nextU16) seedOne
       r.1 = [0x10C5, 0x0FC7, 0xAF6D, 0xB3F2, 0x4CEA, 0x4736] ∧ r.2.engine.wordRem = 2
         ∧ r.2.engine.wordBits = 0x00000000853B5596 ∧ r.2.stepCount = 2)
    ∧ (runCommands (List.replicate 3 .nextS16) seedOne).1 = [4293, 4039, BitVec.ofInt 64 (-20627)]

/-- R211, R212, R203: NEXT.U32 and NEXT.S32 return the pending half if there is one and clear it, else the low half of one
engine step, whose high half becomes pending; so do the RANGE commands of the width over the full range. -/
def Obligations.Next32Commands : Prop :=
  encode .nextU32 = 0x32 ∧ encode .nextS32 = 0xB2
    ∧ (∀ (s : State) (half : BitVec 32), s.seeded = true → s.engine.pending32 = some half →
        let t : State := { s with engine := { s.engine with pending32 := none }, err := 0, phase := .idle }
        exec .nextU32 s = .next { t with result := half.setWidth 64 }
          ∧ exec .nextS32 s = .next { t with result := half.signExtend 64 })
    ∧ (∀ s : State, s.seeded = true → s.engine.pending32 = none →
        let w := s.engine.step.value
        let t : State := { s with
          engine := { s.engine.step.engine with pending32 := some (w.extractLsb' 32 32) }
          stepCount := s.stepCount + 1
          err := 0
          phase := .idle }
        exec .nextU32 s = .next { t with result := (w.extractLsb' 0 32).setWidth 64 }
          ∧ exec .nextS32 s = .next { t with result := (w.extractLsb' 0 32).signExtend 64 })
    ∧ (∀ s : State,
        (s.opa.extractLsb' 0 32 = 0 → s.opb.extractLsb' 0 32 = 0xFFFFFFFF → exec .rangeU32 s = exec .nextU32 s)
          ∧ (s.opa.extractLsb' 0 32 = 0x80000000 → s.opb.extractLsb' 0 32 = 0x7FFFFFFF → exec .rangeS32 s = exec .nextS32 s))
    ∧ (∀ s : State, s.seeded = false →
        exec .nextU32 s = .next { s with err := 4, phase := .idle }
          ∧ exec .nextS32 s = .next { s with err := 4, phase := .idle })
    ∧ (let r := runCommands (List.replicate 5 .nextU32) seedOne
       r.1 = [0x0FC710C5, 0xB3F2AF6D, 0x47364CEA, 0x853B5596, 0x082A4514]
         ∧ r.2.engine.pending32 = some 0x92F89756 ∧ r.2.stepCount = 3)
    ∧ (runCommands (List.replicate 3 .nextS32) seedOne).1
        = [264704197, BitVec.ofInt 64 (-1275941011), 1194740970]

/-- R205 (the spec's own inference, "[derived: from rules R200-R204]"): a raw draw of one width reads and
writes only its own cache and, to refill it, the permutation state. -/
def Obligations.CachesAreIndependent : Prop :=
  (∀ e : Engine,
    (sameCache .byte e.raw1.engine e ∧ sameCache .word e.raw1.engine e ∧ sameCache .half e.raw1.engine e)
    ∧ (sameCache .bool e.raw8.engine e ∧ sameCache .word e.raw8.engine e ∧ sameCache .half e.raw8.engine e)
    ∧ (sameCache .bool e.raw16.engine e ∧ sameCache .byte e.raw16.engine e ∧ sameCache .half e.raw16.engine e)
    ∧ (sameCache .bool e.raw32.engine e ∧ sameCache .byte e.raw32.engine e ∧ sameCache .word e.raw32.engine e)
    ∧ ∀ c, sameCache c e.raw64.engine e)
  ∧ (∀ e f : Engine, samePermutation e f →
    (sameCache .bool e f → e.raw1.value = f.raw1.value ∧ e.raw1.steps = f.raw1.steps
      ∧ samePermutation e.raw1.engine f.raw1.engine ∧ sameCache .bool e.raw1.engine f.raw1.engine)
    ∧ (sameCache .byte e f → e.raw8.value = f.raw8.value ∧ e.raw8.steps = f.raw8.steps
      ∧ samePermutation e.raw8.engine f.raw8.engine ∧ sameCache .byte e.raw8.engine f.raw8.engine)
    ∧ (sameCache .word e f → e.raw16.value = f.raw16.value ∧ e.raw16.steps = f.raw16.steps
      ∧ samePermutation e.raw16.engine f.raw16.engine ∧ sameCache .word e.raw16.engine f.raw16.engine)
    ∧ (sameCache .half e f → e.raw32.value = f.raw32.value ∧ e.raw32.steps = f.raw32.steps
      ∧ samePermutation e.raw32.engine f.raw32.engine ∧ sameCache .half e.raw32.engine f.raw32.engine)
    ∧ e.raw64.value = f.raw64.value ∧ samePermutation e.raw64.engine f.raw64.engine)
  ∧ ∀ e : Engine,
    (e.boolRem ≠ 0 → samePermutation e.raw1.engine e) ∧ (e.byteRem ≠ 0 → samePermutation e.raw8.engine e)
    ∧ (e.wordRem ≠ 0 → samePermutation e.raw16.engine e)
    ∧ (e.pending32 ≠ none → samePermutation e.raw32.engine e)

/-- R213 (the spec's own inference, "[derived: from rules R200-R204]"): engine steps per raw draw, singly and over a whole
refill from an empty cache; a cache with counter 0 has buffer 0 in every state reached from SEED without a RESTORE; and
a stale buffer is never output. -/
def Obligations.EngineStepsPerDraw : Prop :=
  (∀ e : Engine,
    e.raw1.steps = (if e.boolRem = 0 then 1 else 0) ∧ e.raw8.steps = (if e.byteRem = 0 then 1 else 0)
    ∧ e.raw16.steps = (if e.wordRem = 0 then 1 else 0)
    ∧ e.raw32.steps = (if e.pending32 = none then 1 else 0) ∧ e.raw64.steps = 1)
  ∧ (∀ (e : Engine) (n : Nat),
    (e.boolRem = 0 → drawSteps Engine.raw1 (64 * n) e = n)
    ∧ (e.byteRem = 0 → drawSteps Engine.raw8 (8 * n) e = n)
    ∧ (e.wordRem = 0 → drawSteps Engine.raw16 (4 * n) e = n)
    ∧ (e.pending32 = none → drawSteps Engine.raw32 (2 * n) e = n))
  ∧ (∀ e : Engine, buffersFit e → (e.boolRem = 0 → e.boolBits = 0) ∧ (e.byteRem = 0 → e.byteBits = 0)
    ∧ (e.wordRem = 0 → e.wordBits = 0))
  ∧ (∀ s t : State, exec .seed s = .next t → t.err = 0 → buffersFit t.engine)
  ∧ (∀ s t : State, buffersFit s.engine → ¬(s.phase = .running 0 ∧ decode s.cmd = .ok .restore) →
    step s = .next t → buffersFit t.engine)
  ∧ ∀ (e : Engine) (stale : Word),
    (e.boolRem = 0 → ({ e with boolBits := stale }).raw1 = e.raw1)
    ∧ (e.byteRem = 0 → ({ e with byteBits := stale }).raw8 = e.raw8)
    ∧ (e.wordRem = 0 → ({ e with wordBits := stale }).raw16 = e.raw16)

/-! ### Bounded Integer Generator (41_bounded.md) -/

/-- Operands and results (R109, R110): `min` and `max` are the low W bits of `OPA` and `OPB`, read as `uW` or `sW`, the
bits above ignored; a drawn value is zero-extended or sign-extended into `RESULT`. -/
def Obligations.OperandsAndResults : Prop :=
  (∀ (s : State) (w : Nat), 0 < w → w ≤ 64 →
    s.rangeMin w false = ((s.opa.toNat % 2 ^ w : Nat) : Int)
    ∧ s.rangeMax w false = ((s.opb.toNat % 2 ^ w : Nat) : Int)
    ∧ s.rangeMin w true = (if s.opa.getLsbD (w - 1) then ((s.opa.toNat % 2 ^ w : Nat) : Int) - 2 ^ w
        else ((s.opa.toNat % 2 ^ w : Nat) : Int))
    ∧ s.rangeMax w true = (if s.opb.getLsbD (w - 1) then ((s.opb.toNat % 2 ^ w : Nat) : Int) - 2 ^ w
        else ((s.opb.toNat % 2 ^ w : Nat) : Int)))
  ∧ ∀ (w : Nat) (v : BitVec w), w ≤ 64 →
    (widen false v).toNat = v.toNat ∧ (widen true v).toInt = v.toInt

/-- R178, R179 with R170, R171, R173: the 8-bit RANGE commands, path by path. -/
def Obligations.Range8Commands : Prop :=
  encode .rangeU8 = 0x13 ∧ encode .rangeS8 = 0x93
    ∧ rangeMeaning .rangeU8 Engine.raw8 false ∧ rangeMeaning .rangeS8 Engine.raw8 true
    ∧ (∀ s : State, s.seeded = false →
        exec .rangeU8 s = .next { s with err := 4, phase := .idle }
          ∧ exec .rangeS8 s = .next { s with err := 4, phase := .idle })
    ∧ ((2 ^ 8 - 255) % 255 = 1 ∧ (2 ^ 8 - 129) % 129 = 127 ∧ ∀ x : BitVec 8, redraws 255 x ↔ x = 0)
    ∧ (let r := runCommands [.rangeU8] (seedOneWith 0 5)
       r.1 = [4] ∧ r.2.engine.byteRem = 7 ∧ r.2.stepCount = 1)
    ∧ (let r := runCommands [.rangeS8] (seedOneWith (-10) 10)
       r.1 = [6] ∧ r.2.engine.byteRem = 7 ∧ r.2.stepCount = 1)
    ∧ exec .rangeS8 { seedOne with opa := 0x05, opb := 0xFB }
        = .next { seedOne with opa := 0x05, opb := 0xFB, err := 2 }
    ∧ (∃ t, exec .rangeU8 { seedOne with opa := 0x05, opb := 0xFB } = .next t ∧ t.err = 0)

/-- R180, R181 with R170, R171, R173: the 16-bit RANGE commands, path by path. -/
def Obligations.Range16Commands : Prop :=
  encode .rangeU16 = 0x23 ∧ encode .rangeS16 = 0xA3
    ∧ rangeMeaning .rangeU16 Engine.raw16 false ∧ rangeMeaning .rangeS16 Engine.raw16 true
    ∧ (∀ s : State, s.seeded = false →
        exec .rangeU16 s = .next { s with err := 4, phase := .idle }
          ∧ exec .rangeS16 s = .next { s with err := 4, phase := .idle })
    ∧ (let r := runCommands [.rangeU16] (seedOneWith 100 200)
       r.1 = [106] ∧ r.2.engine.wordRem = 3 ∧ r.2.stepCount = 1)
    ∧ (runCommands [.rangeS16] (seedOneWith (-1000) 1000)).1 = [0xFFFFFFFFFFFFFC9B]

/-- R182, R183 with R170, R171, R173: the 32-bit RANGE commands, path by path. -/
def Obligations.Range32Commands : Prop :=
  encode .rangeU32 = 0x33 ∧ encode .rangeS32 = 0xB3
    ∧ rangeMeaning .rangeU32 Engine.raw32 false ∧ rangeMeaning .rangeS32 Engine.raw32 true
    ∧ (∀ s : State, s.seeded = false →
        exec .rangeU32 s = .next { s with err := 4, phase := .idle }
          ∧ exec .rangeS32 s = .next { s with err := 4, phase := .idle })
    ∧ ((2 ^ 32 - (2 ^ 32 - 1)) % (2 ^ 32 - 1) = 1 ∧ (2 ^ 32 - (2 ^ 31 + 1)) % (2 ^ 31 + 1) = 2 ^ 31 - 1)
    ∧ (let r := runCommands [.rangeU32] (seedOneWith 0 2147483648)
       r.1 = [132352098] ∧ r.2.engine.pending32 = some 0xB3F2AF6D ∧ r.2.stepCount = 1)
    ∧ (runCommands [.rangeS32] (seedOneWith (-5) 5)).1 = [0xFFFFFFFFFFFFFFFB]

/-- R184, R185 with R170, R171, R173: the 64-bit RANGE commands, path by path; the caches are untouched. -/
def Obligations.Range64Commands : Prop :=
  encode .rangeU64 = 0x43 ∧ encode .rangeS64 = 0xC3
    ∧ rangeMeaning .rangeU64 Engine.raw64 false ∧ rangeMeaning .rangeS64 Engine.raw64 true
    ∧ (∀ s : State, s.seeded = false →
        exec .rangeU64 s = .next { s with err := 4, phase := .idle }
          ∧ exec .rangeS64 s = .next { s with err := 4, phase := .idle })
    ∧ (∀ (k : Nat) (e : Engine), drawSteps Engine.raw64 k e = k ∧ ∀ c, sameCache c (drawEngine Engine.raw64 k e) e)
    ∧ (2 ^ 64 - (2 ^ 63 + 1)) % (2 ^ 63 + 1) = 2 ^ 63 - 1
    ∧ (runCommands [.rangeU64] (seedOneWith 1 6)).1 = [5]
    ∧ (runCommands [.rangeS64] (seedOneWith (-1) 1)).1 = [1]

/-- R173 as an unbounded loop, for any draw primitive: the sampler ends at the FIRST draw that is not redrawn, whichever
draw that is; no bound on the number of redraws is assumed (R300). -/
def Obligations.LemireEndsAtFirstAcceptedDraw : Prop :=
  ∀ (w : Nat) (raw : Engine → Draw w) (range k : Nat) (e : Engine),
    2 ≤ range → range ≤ 2 ^ w - 1 →
    (∀ j, j < k → redraws range (drawAt raw j e).value) → ¬redraws range (drawAt raw k e).value →
    ∃ d, lemire raw range e = some d
      ∧ d.value.toNat = (drawAt raw k e).value.toNat * range / 2 ^ w
      ∧ d.value.toNat < range
      ∧ d.engine = drawEngine raw (k + 1) e
      ∧ d.steps = drawSteps raw (k + 1) e

/-- R300: the sampler has no value exactly when EVERY raw draw is redrawn, and then, and only then, a RANGE command on
path 4 never ends: it writes nothing and `BUSY` stays 1 (I13). How the model holds a hang is its choice (log entry 2). -/
def Obligations.RangeHangsIffEveryDrawIsRedrawn : Prop :=
  (∀ (w : Nat) (raw : Engine → Draw w) (range : Nat) (e : Engine), 2 ≤ range → range ≤ 2 ^ w - 1 →
    (lemire raw range e = none ↔ ∀ k, redraws range (drawAt raw k e).value))
  ∧ rangeHangs .rangeU8 Engine.raw8 false ∧ rangeHangs .rangeS8 Engine.raw8 true
  ∧ rangeHangs .rangeU16 Engine.raw16 false ∧ rangeHangs .rangeS16 Engine.raw16 true
  ∧ rangeHangs .rangeU32 Engine.raw32 false ∧ rangeHangs .rangeS32 Engine.raw32 true
  ∧ rangeHangs .rangeU64 Engine.raw64 false ∧ rangeHangs .rangeS64 Engine.raw64 true

/-- R174 (the spec's own inference: "This always yields `(2^W - range) mod range`"): the conditional subtractions give the
threshold. -/
def Obligations.ThresholdBySubtraction : Prop :=
  ∀ w range : Nat, 2 ≤ range → range ≤ 2 ^ w - 1 →
    let t0 := 2 ^ w - range
    let t1 := if range ≤ t0 then t0 - range else t0
    let t2 := if range ≤ t1 then t1 - range else t1
    let t3 := if range ≤ t2 then t2 % range else t2
    (1 ≤ t0 ∧ t0 ≤ 2 ^ w - 2) ∧ t3 = threshold w range ∧ threshold w range = (2 ^ w - range) % range
      ∧ threshold w range < range

/-- R172, R176 (the spec's own inferences, "[derived: from rule R171]", "[derived: from rule R171 and rule R173]"): at path
4 `range` lies in [2, 2^W - 1]; it is one more than the W-bit difference of the operands' patterns, signed or unsigned;
and the result's pattern is `bits_W(min) + h` mod 2^W. -/
def Obligations.RangeArithmeticFitsWidth : Prop :=
  ∀ (w : Nat) (sgn : Bool) (a b : BitVec w), 0 < w →
    let min := readAs sgn a
    let max := readAs sgn b
    (min < max → ¬(min = rangeLo w sgn ∧ max = rangeHi w sgn) →
      2 ≤ (max - min + 1).toNat ∧ (max - min + 1).toNat ≤ 2 ^ w - 1
        ∧ (max - min + 1).toNat = (b - a).toNat + 1)
    ∧ ∀ h : Nat, BitVec.ofInt w (min + (h : Int)) = a + BitVec.ofNat w h

/-- R186 (the spec's own inference, "[derived: from rule R171, since `0 <= h < range`]"): what a RANGE command returns
lies in `[min, max]`. -/
def Obligations.RangeResultInBounds : Prop :=
  ∀ (i : Instr) (w : Nat) (sgn : Bool) (s t : State),
    rangeForm i = some (w, sgn) → exec i s = .next t → t.phase = .idle → t.err = 0 →
    let v : BitVec w := t.result.extractLsb' 0 w
    let value : Int := if sgn then v.toInt else v.toNat
    s.rangeMin w sgn ≤ value ∧ value ≤ s.rangeMax w sgn
      ∧ t.result = if sgn then v.signExtend 64 else v.setWidth 64

/-- R177 (the spec's own inference, "[derived: from rule R171 and rule R173]"): entropy consumed by one `Bounded_W`. With
`min == max` or `max < min` there is no raw draw; over the full range exactly one; on path 4, 1 + k, where k is the
number of redraws. -/
def Obligations.EntropyConsumed : Prop :=
  ∀ (w : Nat) (raw : Engine → Draw w) (sgn : Bool) (min max : Int) (e : Engine), 0 < w →
    rangeLo w sgn ≤ min → min ≤ rangeHi w sgn → rangeLo w sgn ≤ max → max ≤ rangeHi w sgn →
    (min = max → bounded raw sgn min max e = .value min e 0)
    ∧ (max < min → bounded raw sgn min max e = .invalidRange)
    ∧ (min = rangeLo w sgn → max = rangeHi w sgn →
        bounded raw sgn min max e = .value (readAs sgn (raw e).value) (drawEngine raw 1 e) (drawSteps raw 1 e))
    ∧ ∀ k, min < max → ¬(min = rangeLo w sgn ∧ max = rangeHi w sgn) →
        (∀ j, j < k → redraws (max - min + 1).toNat (drawAt raw j e).value) →
        ¬redraws (max - min + 1).toNat (drawAt raw k e).value →
        ∃ v, bounded raw sgn min max e = .value v (drawEngine raw (1 + k) e) (drawSteps raw (1 + k) e)
          ∧ min ≤ v ∧ v ≤ max

/-- R104, R176 (the latter the spec's own inference): signedness changes only the reading of operands
and result. A signed NEXT leaves what the unsigned NEXT of its width leaves, but for `RESULT`; so do the two RANGE
commands of a width whose operands are on path 4 in both readings. -/
def Obligations.SignednessChangesOnlyTheReading : Prop :=
  (∀ p ∈ [(Instr.nextU8, Instr.nextS8), (.nextU16, .nextS16), (.nextU32, .nextS32), (.nextU64, .nextS64)],
    ∀ s t : State, exec p.1 s = .next t → ∃ r, exec p.2 s = .next { t with result := r })
  ∧ ∀ p ∈ [(8, Instr.rangeU8, Instr.rangeS8), (16, .rangeU16, .rangeS16), (32, .rangeU32, .rangeS32),
      (64, .rangeU64, .rangeS64)],
    ∀ s t : State,
      (∀ sgn, s.rangeMin p.1 sgn < s.rangeMax p.1 sgn
        ∧ ¬(s.rangeMin p.1 sgn = rangeLo p.1 sgn ∧ s.rangeMax p.1 sgn = rangeHi p.1 sgn)) →
      exec p.2.1 s = .next t → ∃ r, exec p.2.2 s = .next { t with result := r }

/-! ### State Container (43_state_container.md) -/

/-- R232, R230 with the layout of R45: CAPTURE writes the image of the EngineState, reserved bits 0. -/
def Obligations.CaptureCommand : Prop :=
  encode .capture = 0x04
    ∧ (∀ s : State, s.seeded = true →
        let e := s.engine
        exec .capture s = .next { s with
          snap := {
            snap0 := e.s0, snap1 := e.s1, snap2 := e.s2, snap3 := e.s3
            snap4 := e.boolBits, snap5 := e.byteBits, snap6 := e.wordBits
            snap7 := e.pending32.getD 0 ++ (0 : BitVec 7) ++ (if e.pending32.isSome then (1 : BitVec 1) else 0)
              ++ (0 : BitVec 5) ++ e.wordRem ++ (0 : BitVec 4) ++ e.byteRem ++ (0 : BitVec 1) ++ e.boolRem }
          err := 0
          phase := .idle })
    ∧ (∀ s : State, s.seeded = false → exec .capture s = .next { s with err := 4, phase := .idle })
    ∧ (runCommands [.nextU32, .nextU32, .nextU32, .nextU32, .nextU32, .capture] seedOne).2.snap
        = ⟨0xECE6F78118F0F23D, 0xDFCB9045885848D4, 0xE4818F391C42DD1E, 0xCBE23C232943499C, 0, 0, 0,
            0x92F8975601000000⟩

/-- R233, R231: RESTORE loads exactly the valid images, and raises InvalidState for every other. -/
def Obligations.RestoreCommand : Prop :=
  encode .restore = 0x05
    ∧ (∀ s : State,
        let m := s.snap
        let n := m.snap7.toNat
        let ok : Prop :=
          ¬(m.snap0 = 0 ∧ m.snap1 = 0 ∧ m.snap2 = 0 ∧ m.snap3 = 0)
            ∧ n % 128 ≤ 64 ∧ n / 2 ^ 8 % 16 ≤ 8 ∧ n / 2 ^ 16 % 8 ≤ 4
            ∧ n / 2 ^ 7 % 2 = 0 ∧ n / 2 ^ 12 % 16 = 0 ∧ n / 2 ^ 19 % 32 = 0 ∧ n / 2 ^ 25 % 128 = 0
        (ok → exec .restore s = .next { s with
          engine := {
            s0 := m.snap0, s1 := m.snap1, s2 := m.snap2, s3 := m.snap3
            boolRem := BitVec.ofNat 7 n, boolBits := m.snap4
            byteRem := BitVec.ofNat 4 (n / 2 ^ 8), byteBits := m.snap5
            wordRem := BitVec.ofNat 3 (n / 2 ^ 16), wordBits := m.snap6
            pending32 := if n / 2 ^ 24 % 2 = 1 then some (BitVec.ofNat 32 (n / 2 ^ 32)) else none }
          err := 0
          phase := .idle })
        ∧ (¬ok → exec .restore s = .next { s with err := 3, phase := .idle }))
    ∧ (runCommands [.restore, .nextU64] { State.reset with snap := ⟨1, 2, 3, 4, 0, 0, 0, 0⟩ }).1 = [0, 0x2D00]
    ∧ (∀ s : State, s.snap.snap0 = 0 → s.snap.snap1 = 0 → s.snap.snap2 = 0 → s.snap.snap3 = 0 →
        exec .restore s = .next { s with err := 3, phase := .idle })

/-- R235 (the spec's own inference, "[derived: from rule R230, rule R231 and rule R233]"): from any seeded state whose
counters are in their legal ranges, CAPTURE then RESTORE leaves the EngineState as it was, and every later sequence of
commands answers as it would have without the pair. -/
def Obligations.CaptureRestoreRoundTrip : Prop :=
  ∀ s : State, s.seeded = true → countersOk s.engine →
    (pack s.engine).valid = true
    ∧ ∃ t u, exec .capture s = .next t ∧ t.err = 0 ∧ exec .restore t = .next u ∧ u.err = 0
        ∧ u.engine = s.engine ∧ u.stepCount = s.stepCount ∧ u.result = s.result
        ∧ ∀ calls, answers calls u = answers calls s

/-- R236 (the spec's own inference, "[derived: from rules R140-R212]"): an image captured at some point and restored into
any block makes every later sequence of commands with the same operands answer as it did from the point of capture:
nothing outside the EngineState affects an output. -/
def Obligations.ReplayFromSnapshot : Prop :=
  ∀ (s t other u : State) (calls : List Call),
    countersOk s.engine → s.seeded = true → exec .capture s = .next t →
    exec .restore { other with snap := t.snap } = .next u →
    answers calls u = answers calls t

/-- R237 (the spec's own inference, "[derived: from 40_engine.md rule R145, 40_engine.md rule R146 and rule R236]"): two
blocks given SEED with the same `OPA` and then the same commands answer the same, whatever state each was in before. -/
def Obligations.SameSeedSameAnswers : Prop :=
  ∀ (s t s' t' : State) (calls : List Call), s.opa = s'.opa →
    exec .seed s = .next t → exec .seed s' = .next t' → answers calls t = answers calls t'

/-! ### Errors (60_exceptions.md) and whole-machine rules -/

/-- R263: a command that ends with an error writes `STATUS.ERR` and nothing else (`BUSY` returns to 0). -/
def Obligations.FailedCommandChangesOnlyErr : Prop :=
  (∀ (s : State) (e : ErrorKind), s.raise e = { s with err := e.code, phase := .idle })
    ∧ ∀ (i : Instr) (s t : State), exec i s = .next t → t.phase = .idle → t.err ≠ 0 →
        t = { s with err := t.err, phase := .idle }

/-- R262 (the spec's own inference, "[derived: from 30_encoding.md rule R106, ...]"): which command can end with which
code. -/
def Obligations.CodesOfEachCommand : Prop :=
  ∀ (i : Instr) (s t : State), exec i s = .next t → t.phase = .idle →
    (i = .nop → t.err = 0)
    ∧ (i = .seed → t.err = 0 ∨ t.err = 1)
    ∧ (isNext i = true → t.err = 0 ∨ t.err = 4)
    ∧ (isRange i = true → t.err = 0 ∨ t.err = 2 ∨ t.err = 4)
    ∧ (i = .capture → t.err = 0 ∨ t.err = 4)
    ∧ (i = .restore → t.err = 0 ∨ t.err = 3)

/-- R265: the code each command reports, by the first check that fails. -/
def Obligations.ErrorCausesInOrder : Prop :=
  ∀ s t : State, s.phase = .running 0 → step s = .next t → t.phase = .idle →
    match decode s.cmd with
    | .error _ => t.err = 5
    | .ok i =>
      if needsSeed i = true ∧ s.seeded = false then t.err = 4
      else match rangeForm i with
        | some (w, sgn) => t.err = if s.rangeMax w sgn < s.rangeMin w sgn then 2 else 0
        | none => t.err =
            if i = .restore ∧ s.snap.valid = false then 3
            else if i = .seed ∧ (seedExpand s.opa).seeded = false then 1
            else 0

/-- Frame of the commands: what no command changes, and what only some change (R41-R45, R47, R205). The last clause, that a
command either ends or is a RANGE that answers the same state with the phase `hung`, is the model's choice (log entry 2):
R300 and I13 let a model fault on a RANGE that never ends. That no command changes `host`, `lastRead`, `owner` or `freeIndex`
is the model's choice too (log entries 4 to 7). -/
def Obligations.CommandFrame : Prop :=
  ∀ (i : Instr) (s t : State), exec i s = .next t →
    t.cmd = s.cmd ∧ t.opa = s.opa ∧ t.opb = s.opb ∧ t.ovr = s.ovr
    ∧ t.host = s.host ∧ t.lastRead = s.lastRead ∧ t.owner = s.owner ∧ t.freeIndex = s.freeIndex
    ∧ (i ≠ .capture → t.snap = s.snap)
    ∧ (isDraw i = false → t.result = s.result ∧ t.stepCount = s.stepCount)
    ∧ (i ∈ [.nop, .capture] → t.engine = s.engine)
    ∧ (isDraw i = true → ∀ c, cacheOf i ≠ some c → sameCache c t.engine s.engine)
    ∧ (t.phase = .idle ∨ (isRange i = true ∧ t = { s with phase := .hung }))

/-- R37 (in part the spec's own inference, "[derived: from 40_engine.md rule R142]"): `SEEDED` reads whether the permutation
state is non-zero, is 0 after reset, is 1 after a successful SEED or RESTORE, and stays 1 until the next reset. -/
def Obligations.SeededUntilReset : Prop :=
  (∀ s : State, s.status.getLsbD 1 = true ↔ s.engine.s0 ||| s.engine.s1 ||| s.engine.s2 ||| s.engine.s3 ≠ 0)
    ∧ State.reset.seeded = false
    ∧ (∀ s t : State, exec .seed s = .next t ∨ exec .restore s = .next t → t.err = 0 → t.seeded = true)
    ∧ ∀ s t : State, s.seeded = true → ¬resetNext s → step s = .next t → t.seeded = true

/-- The invariant of a run (the model's own, over R30, R49, I7 and I13) holds at reset. -/
def Obligations.InvariantAtReset : Prop := invariant State.reset

/-- Every step keeps the invariant (the model's own): counters in their legal ranges (R30), the EngineState of an unseeded
block that of reset, `ERR` at most 5 (I7), a hang only in a RANGE of a seeded block (I13; a hang as a phase
is the choice of log entry 2). -/
def Obligations.StepKeepsInvariant : Prop :=
  ∀ s t : State, invariant s → step s = .next t → invariant t

/-- Every command answers a next state, whatever its operands, and so does every step in which a command is due; any other
step answers a next state or refuses a host access the spec leaves undefined (R85, R298). No step faults: "There are no
traps" (R267), and a RANGE that never ends, which R300 and I13 let a model fault on, is held as a state, which is the
model's choice (log entry 2). -/
def Obligations.OnlyHostAccessesStop : Prop :=
  (∀ (i : Instr) (s : State), ∃ t, exec i s = .next t)
    ∧ (∀ s : State, s.phase = .running 0 → ∃ t, step s = .next t)
    ∧ ∀ s : State, (∃ t, step s = .next t) ∨ step s = .refused .outsideWindow ∨ step s = .refused .accessWidth
        ∨ step s = .refused .misaligned ∨ step s = .refused .secondHost
end

