-- ==== Sys2Proof/Laws/State.lean ====
section
/-! SUPPORT. What each update of State does to each field, one lemma per field, so that no later proof unfolds a record
update. -/

namespace Sys2Proof.Machine

/-! ### State.finish -/

@[simp] theorem State.finish_engine (s : State) (code : BitVec 4) :
    (s.finish code).engine = s.engine := rfl
@[simp] theorem State.finish_cmd (s : State) (code : BitVec 4) :
    (s.finish code).cmd = s.cmd := rfl
@[simp] theorem State.finish_err (s : State) (code : BitVec 4) :
    (s.finish code).err = code := rfl
@[simp] theorem State.finish_ovr (s : State) (code : BitVec 4) :
    (s.finish code).ovr = s.ovr := rfl
@[simp] theorem State.finish_phase (s : State) (code : BitVec 4) :
    (s.finish code).phase = .idle := rfl
@[simp] theorem State.finish_opa (s : State) (code : BitVec 4) :
    (s.finish code).opa = s.opa := rfl
@[simp] theorem State.finish_opb (s : State) (code : BitVec 4) :
    (s.finish code).opb = s.opb := rfl
@[simp] theorem State.finish_result (s : State) (code : BitVec 4) :
    (s.finish code).result = s.result := rfl
@[simp] theorem State.finish_stepCount (s : State) (code : BitVec 4) :
    (s.finish code).stepCount = s.stepCount := rfl
@[simp] theorem State.finish_snap (s : State) (code : BitVec 4) :
    (s.finish code).snap = s.snap := rfl
@[simp] theorem State.finish_host (s : State) (code : BitVec 4) :
    (s.finish code).host = s.host := rfl
@[simp] theorem State.finish_lastRead (s : State) (code : BitVec 4) :
    (s.finish code).lastRead = s.lastRead := rfl
@[simp] theorem State.finish_owner (s : State) (code : BitVec 4) :
    (s.finish code).owner = s.owner := rfl
@[simp] theorem State.finish_freeIndex (s : State) (code : BitVec 4) :
    (s.finish code).freeIndex = s.freeIndex := rfl

/-! ### State.raise -/

@[simp] theorem State.raise_engine (s : State) (e : ErrorKind) :
    (s.raise e).engine = s.engine := rfl
@[simp] theorem State.raise_cmd (s : State) (e : ErrorKind) :
    (s.raise e).cmd = s.cmd := rfl
@[simp] theorem State.raise_err (s : State) (e : ErrorKind) :
    (s.raise e).err = e.code := rfl
@[simp] theorem State.raise_ovr (s : State) (e : ErrorKind) :
    (s.raise e).ovr = s.ovr := rfl
@[simp] theorem State.raise_phase (s : State) (e : ErrorKind) :
    (s.raise e).phase = .idle := rfl
@[simp] theorem State.raise_opa (s : State) (e : ErrorKind) :
    (s.raise e).opa = s.opa := rfl
@[simp] theorem State.raise_opb (s : State) (e : ErrorKind) :
    (s.raise e).opb = s.opb := rfl
@[simp] theorem State.raise_result (s : State) (e : ErrorKind) :
    (s.raise e).result = s.result := rfl
@[simp] theorem State.raise_stepCount (s : State) (e : ErrorKind) :
    (s.raise e).stepCount = s.stepCount := rfl
@[simp] theorem State.raise_snap (s : State) (e : ErrorKind) :
    (s.raise e).snap = s.snap := rfl
@[simp] theorem State.raise_host (s : State) (e : ErrorKind) :
    (s.raise e).host = s.host := rfl
@[simp] theorem State.raise_lastRead (s : State) (e : ErrorKind) :
    (s.raise e).lastRead = s.lastRead := rfl
@[simp] theorem State.raise_owner (s : State) (e : ErrorKind) :
    (s.raise e).owner = s.owner := rfl
@[simp] theorem State.raise_freeIndex (s : State) (e : ErrorKind) :
    (s.raise e).freeIndex = s.freeIndex := rfl

/-! ### State.succeed -/

@[simp] theorem State.succeed_engine (s : State) :
    (s.succeed).engine = s.engine := rfl
@[simp] theorem State.succeed_cmd (s : State) :
    (s.succeed).cmd = s.cmd := rfl
@[simp] theorem State.succeed_err (s : State) :
    (s.succeed).err = 0 := rfl
@[simp] theorem State.succeed_ovr (s : State) :
    (s.succeed).ovr = s.ovr := rfl
@[simp] theorem State.succeed_phase (s : State) :
    (s.succeed).phase = .idle := rfl
@[simp] theorem State.succeed_opa (s : State) :
    (s.succeed).opa = s.opa := rfl
@[simp] theorem State.succeed_opb (s : State) :
    (s.succeed).opb = s.opb := rfl
@[simp] theorem State.succeed_result (s : State) :
    (s.succeed).result = s.result := rfl
@[simp] theorem State.succeed_stepCount (s : State) :
    (s.succeed).stepCount = s.stepCount := rfl
@[simp] theorem State.succeed_snap (s : State) :
    (s.succeed).snap = s.snap := rfl
@[simp] theorem State.succeed_host (s : State) :
    (s.succeed).host = s.host := rfl
@[simp] theorem State.succeed_lastRead (s : State) :
    (s.succeed).lastRead = s.lastRead := rfl
@[simp] theorem State.succeed_owner (s : State) :
    (s.succeed).owner = s.owner := rfl
@[simp] theorem State.succeed_freeIndex (s : State) :
    (s.succeed).freeIndex = s.freeIndex := rfl

/-! ### State.hang -/

@[simp] theorem State.hang_engine (s : State) :
    (s.hang).engine = s.engine := rfl
@[simp] theorem State.hang_cmd (s : State) :
    (s.hang).cmd = s.cmd := rfl
@[simp] theorem State.hang_err (s : State) :
    (s.hang).err = s.err := rfl
@[simp] theorem State.hang_ovr (s : State) :
    (s.hang).ovr = s.ovr := rfl
@[simp] theorem State.hang_phase (s : State) :
    (s.hang).phase = .hung := rfl
@[simp] theorem State.hang_opa (s : State) :
    (s.hang).opa = s.opa := rfl
@[simp] theorem State.hang_opb (s : State) :
    (s.hang).opb = s.opb := rfl
@[simp] theorem State.hang_result (s : State) :
    (s.hang).result = s.result := rfl
@[simp] theorem State.hang_stepCount (s : State) :
    (s.hang).stepCount = s.stepCount := rfl
@[simp] theorem State.hang_snap (s : State) :
    (s.hang).snap = s.snap := rfl
@[simp] theorem State.hang_host (s : State) :
    (s.hang).host = s.host := rfl
@[simp] theorem State.hang_lastRead (s : State) :
    (s.hang).lastRead = s.lastRead := rfl
@[simp] theorem State.hang_owner (s : State) :
    (s.hang).owner = s.owner := rfl
@[simp] theorem State.hang_freeIndex (s : State) :
    (s.hang).freeIndex = s.freeIndex := rfl

/-! ### State.drew -/

@[simp] theorem State.drew_engine (s : State) (engine : Engine) (steps : Nat) (result : Word) :
    (s.drew engine steps result).engine = engine := rfl
@[simp] theorem State.drew_cmd (s : State) (engine : Engine) (steps : Nat) (result : Word) :
    (s.drew engine steps result).cmd = s.cmd := rfl
@[simp] theorem State.drew_err (s : State) (engine : Engine) (steps : Nat) (result : Word) :
    (s.drew engine steps result).err = 0 := rfl
@[simp] theorem State.drew_ovr (s : State) (engine : Engine) (steps : Nat) (result : Word) :
    (s.drew engine steps result).ovr = s.ovr := rfl
@[simp] theorem State.drew_phase (s : State) (engine : Engine) (steps : Nat) (result : Word) :
    (s.drew engine steps result).phase = .idle := rfl
@[simp] theorem State.drew_opa (s : State) (engine : Engine) (steps : Nat) (result : Word) :
    (s.drew engine steps result).opa = s.opa := rfl
@[simp] theorem State.drew_opb (s : State) (engine : Engine) (steps : Nat) (result : Word) :
    (s.drew engine steps result).opb = s.opb := rfl
@[simp] theorem State.drew_result (s : State) (engine : Engine) (steps : Nat) (result : Word) :
    (s.drew engine steps result).result = result := rfl
@[simp] theorem State.drew_stepCount (s : State) (engine : Engine) (steps : Nat) (result : Word) :
    (s.drew engine steps result).stepCount = s.stepCount + BitVec.ofNat 64 steps := rfl
@[simp] theorem State.drew_snap (s : State) (engine : Engine) (steps : Nat) (result : Word) :
    (s.drew engine steps result).snap = s.snap := rfl
@[simp] theorem State.drew_host (s : State) (engine : Engine) (steps : Nat) (result : Word) :
    (s.drew engine steps result).host = s.host := rfl
@[simp] theorem State.drew_lastRead (s : State) (engine : Engine) (steps : Nat) (result : Word) :
    (s.drew engine steps result).lastRead = s.lastRead := rfl
@[simp] theorem State.drew_owner (s : State) (engine : Engine) (steps : Nat) (result : Word) :
    (s.drew engine steps result).owner = s.owner := rfl
@[simp] theorem State.drew_freeIndex (s : State) (engine : Engine) (steps : Nat) (result : Word) :
    (s.drew engine steps result).freeIndex = s.freeIndex := rfl

/-! ### State.writeStatus -/

@[simp] theorem State.writeStatus_engine (s : State) (v : Word) :
    (s.writeStatus v).engine = s.engine := rfl
@[simp] theorem State.writeStatus_cmd (s : State) (v : Word) :
    (s.writeStatus v).cmd = s.cmd := rfl
@[simp] theorem State.writeStatus_err (s : State) (v : Word) :
    (s.writeStatus v).err = s.err := rfl
@[simp] theorem State.writeStatus_ovr (s : State) (v : Word) :
    (s.writeStatus v).ovr = (s.ovr && !v.getLsbD 8) := rfl
@[simp] theorem State.writeStatus_phase (s : State) (v : Word) :
    (s.writeStatus v).phase = s.phase := rfl
@[simp] theorem State.writeStatus_opa (s : State) (v : Word) :
    (s.writeStatus v).opa = s.opa := rfl
@[simp] theorem State.writeStatus_opb (s : State) (v : Word) :
    (s.writeStatus v).opb = s.opb := rfl
@[simp] theorem State.writeStatus_result (s : State) (v : Word) :
    (s.writeStatus v).result = s.result := rfl
@[simp] theorem State.writeStatus_stepCount (s : State) (v : Word) :
    (s.writeStatus v).stepCount = s.stepCount := rfl
@[simp] theorem State.writeStatus_snap (s : State) (v : Word) :
    (s.writeStatus v).snap = s.snap := rfl
@[simp] theorem State.writeStatus_host (s : State) (v : Word) :
    (s.writeStatus v).host = s.host := rfl
@[simp] theorem State.writeStatus_lastRead (s : State) (v : Word) :
    (s.writeStatus v).lastRead = s.lastRead := rfl
@[simp] theorem State.writeStatus_owner (s : State) (v : Word) :
    (s.writeStatus v).owner = s.owner := rfl
@[simp] theorem State.writeStatus_freeIndex (s : State) (v : Word) :
    (s.writeStatus v).freeIndex = s.freeIndex := rfl

/-! ### State.overrun -/

@[simp] theorem State.overrun_engine (s : State) :
    (s.overrun).engine = s.engine := rfl
@[simp] theorem State.overrun_cmd (s : State) :
    (s.overrun).cmd = s.cmd := rfl
@[simp] theorem State.overrun_err (s : State) :
    (s.overrun).err = s.err := rfl
@[simp] theorem State.overrun_ovr (s : State) :
    (s.overrun).ovr = true := rfl
@[simp] theorem State.overrun_phase (s : State) :
    (s.overrun).phase = s.phase := rfl
@[simp] theorem State.overrun_opa (s : State) :
    (s.overrun).opa = s.opa := rfl
@[simp] theorem State.overrun_opb (s : State) :
    (s.overrun).opb = s.opb := rfl
@[simp] theorem State.overrun_result (s : State) :
    (s.overrun).result = s.result := rfl
@[simp] theorem State.overrun_stepCount (s : State) :
    (s.overrun).stepCount = s.stepCount := rfl
@[simp] theorem State.overrun_snap (s : State) :
    (s.overrun).snap = s.snap := rfl
@[simp] theorem State.overrun_host (s : State) :
    (s.overrun).host = s.host := rfl
@[simp] theorem State.overrun_lastRead (s : State) :
    (s.overrun).lastRead = s.lastRead := rfl
@[simp] theorem State.overrun_owner (s : State) :
    (s.overrun).owner = s.owner := rfl
@[simp] theorem State.overrun_freeIndex (s : State) :
    (s.overrun).freeIndex = s.freeIndex := rfl

/-! ### State.startCommand -/

@[simp] theorem State.startCommand_engine (s : State) (v : Word) :
    (s.startCommand v).engine = s.engine := rfl
@[simp] theorem State.startCommand_cmd (s : State) (v : Word) :
    (s.startCommand v).cmd = v := rfl
@[simp] theorem State.startCommand_err (s : State) (v : Word) :
    (s.startCommand v).err = s.err := rfl
@[simp] theorem State.startCommand_ovr (s : State) (v : Word) :
    (s.startCommand v).ovr = s.ovr := rfl
@[simp] theorem State.startCommand_phase (s : State) (v : Word) :
    (s.startCommand v).phase = .running (Config.latency s.freeIndex) := rfl
@[simp] theorem State.startCommand_opa (s : State) (v : Word) :
    (s.startCommand v).opa = s.opa := rfl
@[simp] theorem State.startCommand_opb (s : State) (v : Word) :
    (s.startCommand v).opb = s.opb := rfl
@[simp] theorem State.startCommand_result (s : State) (v : Word) :
    (s.startCommand v).result = s.result := rfl
@[simp] theorem State.startCommand_stepCount (s : State) (v : Word) :
    (s.startCommand v).stepCount = s.stepCount := rfl
@[simp] theorem State.startCommand_snap (s : State) (v : Word) :
    (s.startCommand v).snap = s.snap := rfl
@[simp] theorem State.startCommand_host (s : State) (v : Word) :
    (s.startCommand v).host = s.host := rfl
@[simp] theorem State.startCommand_lastRead (s : State) (v : Word) :
    (s.startCommand v).lastRead = s.lastRead := rfl
@[simp] theorem State.startCommand_owner (s : State) (v : Word) :
    (s.startCommand v).owner = s.owner := rfl
@[simp] theorem State.startCommand_freeIndex (s : State) (v : Word) :
    (s.startCommand v).freeIndex = s.freeIndex + 1 := rfl

/-! ### State.commandDue -/

@[simp] theorem State.commandDue_engine (s : State) (v : Word) :
    (s.commandDue v).engine = s.engine := rfl
@[simp] theorem State.commandDue_cmd (s : State) (v : Word) :
    (s.commandDue v).cmd = v := rfl
@[simp] theorem State.commandDue_err (s : State) (v : Word) :
    (s.commandDue v).err = s.err := rfl
@[simp] theorem State.commandDue_ovr (s : State) (v : Word) :
    (s.commandDue v).ovr = s.ovr := rfl
@[simp] theorem State.commandDue_phase (s : State) (v : Word) :
    (s.commandDue v).phase = .running 0 := rfl
@[simp] theorem State.commandDue_opa (s : State) (v : Word) :
    (s.commandDue v).opa = s.opa := rfl
@[simp] theorem State.commandDue_opb (s : State) (v : Word) :
    (s.commandDue v).opb = s.opb := rfl
@[simp] theorem State.commandDue_result (s : State) (v : Word) :
    (s.commandDue v).result = s.result := rfl
@[simp] theorem State.commandDue_stepCount (s : State) (v : Word) :
    (s.commandDue v).stepCount = s.stepCount := rfl
@[simp] theorem State.commandDue_snap (s : State) (v : Word) :
    (s.commandDue v).snap = s.snap := rfl
@[simp] theorem State.commandDue_host (s : State) (v : Word) :
    (s.commandDue v).host = s.host := rfl
@[simp] theorem State.commandDue_lastRead (s : State) (v : Word) :
    (s.commandDue v).lastRead = s.lastRead := rfl
@[simp] theorem State.commandDue_owner (s : State) (v : Word) :
    (s.commandDue v).owner = s.owner := rfl
@[simp] theorem State.commandDue_freeIndex (s : State) (v : Word) :
    (s.commandDue v).freeIndex = s.freeIndex := rfl

end Sys2Proof.Machine
end

