-- ==== Sys2Proof/Laws/Host.lean ====
section
/-! SUPPORT. What an event at the block's boundary can do: the address of a slot reaches it, who may access, the passing of
an event, and one lemma per kind of event that says everything the step then does. -/

namespace Sys2Proof.Machine

/-! ### The window -/

/-- Every offset is a multiple of 8 below 128. -/
theorem Reg.offset_lt (r : Reg) : r.offset < 128 ∧ r.offset % 8 = 0 := by cases r <;> decide

/-- The slot number of a slot's offset names the slot. -/
theorem regOfSlot_offset (r : Reg) : regOfSlot (r.offset / 8) = r := by cases r <;> rfl

/-- An aligned 64-bit access at a slot's address reaches the slot. -/
@[simp] theorem accessTarget_addr (r : Reg) : accessTarget r.addr 8 = .ok r := by
  obtain ⟨hlt, hmod⟩ := r.offset_lt
  have hdiv : r.addr / 128 = Config.windowIndex := by simp only [Reg.addr, Config.base]; omega
  have hal : r.addr % 8 = 0 := by simp only [Reg.addr, Config.base]; omega
  have hoff : r.addr % 128 = r.offset := by simp only [Reg.addr, Config.base]; omega
  simp [accessTarget, hdiv, hal, hoff, regOfSlot_offset]

/-- The address of a slot determines the slot. -/
theorem Reg.addr_inj {r q : Reg} (h : r.addr = q.addr) : r = q := by
  have h' := accessTarget_addr r
  rw [h, accessTarget_addr] at h'
  exact (Except.ok.inj h').symm

/-- An access that is not refused is an aligned 64-bit access at a slot's address. -/
theorem accessTarget_ok {addr size : Nat} {r : Reg} (h : accessTarget addr size = .ok r) :
    addr = r.addr ∧ size = 8 := by
  unfold accessTarget at h
  split at h
  · cases h
  · split at h
    · cases h
    · split at h
      · cases h
      · rename_i hw hs ha
        have hr : regOfSlot (addr % 128 / 8) = r := Except.ok.inj h
        have hoff : ∀ k, k < 16 → (regOfSlot k).offset = 8 * k := by decide
        have := hoff (addr % 128 / 8) (by omega)
        subst hr
        refine ⟨?_, by omega⟩
        simp only [Reg.addr, Config.base, this]
        omega

/-! ### Who may access, and the passing of an event -/

/-- The run's one host agent may access. -/
theorem State.claim_ok {s : State} {agent : Nat} (h : s.owner = none ∨ s.owner = some agent) :
    s.claim agent = .ok { s with owner := some agent } := by
  rcases h with h | h
  · simp [State.claim, h]
  · cases s; simp_all [State.claim]

/-- Another agent may not. -/
theorem State.claim_error {s : State} {first agent : Nat} (h : s.owner = some first) (hne : agent ≠ first) :
    s.claim agent = .error .secondHost := by
  simp [State.claim, h, Ne.symm hne]

/-- What `claim` can answer. -/
theorem State.claim_cases (s : State) (agent : Nat) :
    ((s.owner = none ∨ s.owner = some agent) ∧ s.claim agent = .ok { s with owner := some agent })
      ∨ s.claim agent = .error .secondHost := by
  by_cases h : s.owner = none ∨ s.owner = some agent
  · exact .inl ⟨h, State.claim_ok h⟩
  · cases ho : s.owner with
    | none => simp [ho] at h
    | some first =>
      simp only [ho, Option.some.injEq, reduceCtorEq, false_or] at h
      exact .inr (State.claim_error ho (Ne.symm h))

/-- `passEvent` changes the phase only, and never ends a command. -/
theorem State.passEvent_eq (s : State) :
    s.passEvent = { s with phase := s.passEvent.phase } ∧ s.passEvent.busy = s.busy := by
  obtain ⟨_, _, _, _, phase, _, _, _, _, _, _, _, _, _⟩ := s
  cases phase with
  | idle => exact ⟨rfl, rfl⟩
  | hung => exact ⟨rfl, rfl⟩
  | running n => cases n <;> exact ⟨rfl, rfl⟩

/-- `passEvent` on each phase. -/
@[simp] theorem State.passEvent_idle {s : State} (h : s.phase = .idle) : s.passEvent = s := by
  simp [State.passEvent, h]

@[simp] theorem State.passEvent_hung {s : State} (h : s.phase = .hung) : s.passEvent = s := by
  simp [State.passEvent, h]

@[simp] theorem State.passEvent_running {s : State} {n : Nat} (h : s.phase = .running (n + 1)) :
    s.passEvent = { s with phase := .running n } := by
  simp [State.passEvent, h]

/-! ### Steps -/

/-- While no command is due, a step is the next event. -/
theorem step_of_not_due {s : State} (h : s.phase ≠ .running 0) : step s = hostTurn s := by
  unfold step advance
  split <;> simp_all

/-- When a command is due, a step ends it. -/
theorem step_of_due {s : State} (h : s.phase = .running 0) : step s = runCommand s := by
  simp [step, advance, h]

/-- An access of the run's host agent to a slot has its effect after the event has passed. -/
theorem hostAccess_ok {s : State} {agent : Nat} (r : Reg) (effect : State → Reg → State)
    (h : s.owner = none ∨ s.owner = some agent) :
    hostAccess s agent r.addr 8 effect = .next (effect ({ s with owner := some agent }).passEvent r) := by
  simp [hostAccess, State.claim_ok h]

/-- An access that gives a next state is one of the run's host agent to a slot. -/
theorem hostAccess_next {s t : State} {agent addr size : Nat} {effect : State → Reg → State}
    (h : hostAccess s agent addr size effect = .next t) :
    ∃ r : Reg, (s.owner = none ∨ s.owner = some agent) ∧ addr = r.addr ∧ size = 8
      ∧ t = effect ({ s with owner := some agent }).passEvent r := by
  rcases s.claim_cases agent with ⟨ho, hc⟩ | hc
  · cases ha : accessTarget addr size with
    | error e => simp [hostAccess, hc, ha] at h
    | ok r =>
      obtain ⟨h1, h2⟩ := accessTarget_ok ha
      simp only [hostAccess, hc, ha, Host.Outcome.next.injEq] at h
      exact ⟨r, ho, h1, h2, h.symm⟩
  · simp [hostAccess, hc] at h

/-- Everything a host event can do when it gives a next state: time passes, a slot is written, a slot is read, `STATUS` is
polled, or the block is reset. -/
theorem hostTurn_next {s t : State} (h : hostTurn s = .next t) :
    (s.host = [] ∧ t = s.passEvent)
    ∨ (∃ agent r v rest, s.host = .write agent (Reg.addr r) 8 v :: rest
        ∧ (s.owner = none ∨ s.owner = some agent)
        ∧ t = ({ s with host := rest, owner := some agent }).passEvent.hostWrite v r)
    ∨ (∃ agent r rest, s.host = .read agent (Reg.addr r) 8 :: rest
        ∧ (s.owner = none ∨ s.owner = some agent)
        ∧ t = ({ s with host := rest, owner := some agent }).passEvent.hostRead r)
    ∨ (∃ agent rest, s.host = .wait agent :: rest
        ∧ (s.owner = none ∨ s.owner = some agent)
        ∧ t = ({ s with host := if s.busy then s.host else rest, owner := some agent }).passEvent.hostRead .status)
    ∨ (∃ rest, s.host = .reset :: rest ∧ t = ({ s with host := rest }).resetBlock) := by
  unfold hostTurn at h
  split at h
  · rename_i hh
    exact .inl ⟨hh, (Host.Outcome.next.inj h).symm⟩
  · rename_i agent addr size v rest hh
    obtain ⟨r, ho, rfl, rfl, rfl⟩ := hostAccess_next h
    exact .inr (.inl ⟨agent, r, v, rest, hh, ho, rfl⟩)
  · rename_i agent addr size rest hh
    obtain ⟨r, ho, rfl, rfl, rfl⟩ := hostAccess_next h
    exact .inr (.inr (.inl ⟨agent, r, rest, hh, ho, rfl⟩))
  · rename_i agent rest hh
    obtain ⟨r, ho, ha, -, rfl⟩ := hostAccess_next h
    obtain rfl := Reg.addr_inj ha
    exact .inr (.inr (.inr (.inl ⟨agent, rest, hh, ho, by simp [hh]⟩)))
  · rename_i rest hh
    exact .inr (.inr (.inr (.inr ⟨rest, hh, (Host.Outcome.next.inj h).symm⟩)))

/-- A host read changes only what the host has read and the next free value. -/
theorem State.hostRead_frame (s : State) (r : Reg) :
    s.hostRead r = { s with lastRead := (s.hostRead r).lastRead, freeIndex := (s.hostRead r).freeIndex } := by
  unfold State.hostRead
  split <;> rfl

/-- A host write changes only the slot it targets, `OVR`, and, for `CMD`, the phase and the next free value. -/
theorem State.hostWrite_frame (s : State) (v : Word) (r : Reg) :
    s.hostWrite v r = { s with
      cmd := (s.hostWrite v r).cmd
      ovr := (s.hostWrite v r).ovr
      phase := (s.hostWrite v r).phase
      opa := (s.hostWrite v r).opa
      opb := (s.hostWrite v r).opb
      snap := (s.hostWrite v r).snap
      freeIndex := (s.hostWrite v r).freeIndex } := by
  unfold State.hostWrite
  split
  · rfl
  · cases r <;> rfl

/-- A run of n + 1 steps whose first step gives t is the run of n steps from t. -/
theorem run_next {s t : State} (n : Nat) (h : step s = .next t) : core.run (n + 1) s = core.run n t := by
  have h' : core.step s = .next t := h
  simp only [Host.Core.run, h']

end Sys2Proof.Machine
end

