-- ==== Sys2Proof/Laws/Ops.lean ====
section
/-! SUPPORT. One lemma per shared operation that says everything it can do: the engine step, the raw draws, the sampler, the
bounded generator, the two kinds of drawing command, and `exec` as a whole. -/

namespace Sys2Proof.Machine

/-! ### The engine step -/

@[simp] theorem Engine.step_value (e : Engine) : e.step.value = e.output := rfl
@[simp] theorem Engine.step_engine (e : Engine) : e.step.engine = e.advance := rfl
@[simp] theorem Engine.step_steps (e : Engine) : e.step.steps = 1 := rfl
@[simp] theorem Engine.raw64_eq (e : Engine) : e.raw64 = e.step := rfl

@[simp] theorem Engine.advance_boolRem (e : Engine) : e.advance.boolRem = e.boolRem := rfl
@[simp] theorem Engine.advance_boolBits (e : Engine) : e.advance.boolBits = e.boolBits := rfl
@[simp] theorem Engine.advance_byteRem (e : Engine) : e.advance.byteRem = e.byteRem := rfl
@[simp] theorem Engine.advance_byteBits (e : Engine) : e.advance.byteBits = e.byteBits := rfl
@[simp] theorem Engine.advance_wordRem (e : Engine) : e.advance.wordRem = e.wordRem := rfl
@[simp] theorem Engine.advance_wordBits (e : Engine) : e.advance.wordBits = e.wordBits := rfl
@[simp] theorem Engine.advance_pending32 (e : Engine) : e.advance.pending32 = e.pending32 := rfl

/-- A left rotation of a 64-bit value (R12). -/
theorem rotl_eq_rotateLeft (a : Word) {k : Nat} (h : k < 64) : rotl a k = a.rotateLeft k := by
  rw [BitVec.rotateLeft_def, Nat.mod_eq_of_lt h]
  rfl

/-- An engine is unseeded exactly when its four words are zero (R37). -/
theorem Engine.seeded_eq_false_iff (e : Engine) :
    e.seeded = false ↔ e.s0 = 0 ∧ e.s1 = 0 ∧ e.s2 = 0 ∧ e.s3 = 0 := by
  have or_zero : ∀ a b : Word, a ||| b = 0 ↔ a = 0 ∧ b = 0 := fun a b => BitVec.or_eq_zero_iff
  simp only [Engine.seeded, bne_eq_false_iff_eq, or_zero, and_assoc]

/-! ### Raw draws: with a unit left, and from an empty cache -/

theorem Engine.raw1_of_left {e : Engine} (h : e.boolRem ≠ 0) :
    e.raw1 = ⟨e.boolBits.extractLsb' 0 1, { e with boolBits := e.boolBits >>> 1, boolRem := e.boolRem - 1 }, 0⟩ := by
  simp only [Engine.raw1, if_neg h]

theorem Engine.raw1_of_empty {e : Engine} (h : e.boolRem = 0) :
    e.raw1 = ⟨e.output.extractLsb' 0 1, { e.advance with boolBits := e.output >>> 1, boolRem := 63 }, 1⟩ := by
  simp only [Engine.raw1, if_pos h]
  rfl

theorem Engine.raw8_of_left {e : Engine} (h : e.byteRem ≠ 0) :
    e.raw8 = ⟨e.byteBits.extractLsb' 0 8, { e with byteBits := e.byteBits >>> 8, byteRem := e.byteRem - 1 }, 0⟩ := by
  simp only [Engine.raw8, if_neg h]

theorem Engine.raw8_of_empty {e : Engine} (h : e.byteRem = 0) :
    e.raw8 = ⟨e.output.extractLsb' 0 8, { e.advance with byteBits := e.output >>> 8, byteRem := 7 }, 1⟩ := by
  simp only [Engine.raw8, if_pos h]
  rfl

theorem Engine.raw16_of_left {e : Engine} (h : e.wordRem ≠ 0) :
    e.raw16 = ⟨e.wordBits.extractLsb' 0 16, { e with wordBits := e.wordBits >>> 16, wordRem := e.wordRem - 1 }, 0⟩ := by
  simp only [Engine.raw16, if_neg h]

theorem Engine.raw16_of_empty {e : Engine} (h : e.wordRem = 0) :
    e.raw16 = ⟨e.output.extractLsb' 0 16, { e.advance with wordBits := e.output >>> 16, wordRem := 3 }, 1⟩ := by
  simp only [Engine.raw16, if_pos h]
  rfl

theorem Engine.raw32_of_pending {e : Engine} {half : BitVec 32} (h : e.pending32 = some half) :
    e.raw32 = ⟨half, { e with pending32 := none }, 0⟩ := by
  simp only [Engine.raw32, h]

theorem Engine.raw32_of_absent {e : Engine} (h : e.pending32 = none) :
    e.raw32 = ⟨e.output.extractLsb' 0 32, { e.advance with pending32 := some (e.output.extractLsb' 32 32) }, 1⟩ := by
  simp only [Engine.raw32, h]
  rfl

/-! ### The bounded generator -/

/-- Everything `Bounded_W` can do, path by path (R171). -/
theorem bounded_cases {w : Nat} (raw : Engine → Draw w) (sgn : Bool) (min max : Int) (e : Engine) :
    (min = max ∧ bounded raw sgn min max e = .value min e 0)
    ∨ (min ≠ max ∧ (min = rangeLo w sgn ∧ max = rangeHi w sgn)
        ∧ bounded raw sgn min max e = .value (readAs sgn (raw e).value) (raw e).engine (raw e).steps)
    ∨ (min ≠ max ∧ ¬(min = rangeLo w sgn ∧ max = rangeHi w sgn) ∧ max < min
        ∧ bounded raw sgn min max e = .invalidRange)
    ∨ (min < max ∧ ¬(min = rangeLo w sgn ∧ max = rangeHi w sgn) ∧ lemire raw (max - min + 1).toNat e = none
        ∧ bounded raw sgn min max e = .neverEnds)
    ∨ (min < max ∧ ¬(min = rangeLo w sgn ∧ max = rangeHi w sgn)
        ∧ ∃ d, lemire raw (max - min + 1).toNat e = some d
          ∧ bounded raw sgn min max e = .value (min + d.value.toNat) d.engine d.steps) := by
  unfold bounded
  by_cases h1 : min = max
  · exact .inl ⟨h1, if_pos h1⟩
  · by_cases h2 : min = rangeLo w sgn ∧ max = rangeHi w sgn
    · exact .inr (.inl ⟨h1, h2, by rw [if_neg h1, if_pos h2]⟩)
    · by_cases h3 : max < min
      · exact .inr (.inr (.inl ⟨h1, h2, h3, by rw [if_neg h1, if_neg h2, if_pos h3]⟩))
      · have h4 : min < max := by omega
        cases h5 : lemire raw (max - min + 1).toNat e with
        | none => exact .inr (.inr (.inr (.inl ⟨h4, h2, rfl, by simp only [if_neg h1, if_neg h2, if_neg h3]⟩)))
        | some d => exact .inr (.inr (.inr (.inr ⟨h4, h2, d, rfl, by simp only [if_neg h1, if_neg h2, if_neg h3]⟩)))

/-! ### Commands -/

/-- Everything a NEXT command can do. -/
theorem nextDraw_cases {w : Nat} (raw : Engine → Draw w) (sgn : Bool) (s : State) :
    (s.seeded = true ∧ nextDraw raw sgn s
        = .next (s.drew (raw s.engine).engine (raw s.engine).steps (widen sgn (raw s.engine).value)))
    ∨ (s.seeded = false ∧ nextDraw raw sgn s = .next (s.raise .notSeeded)) := by
  unfold nextDraw
  cases h : s.seeded
  · exact .inr ⟨rfl, rfl⟩
  · exact .inl ⟨rfl, rfl⟩

/-- Everything a RANGE command can do. -/
theorem rangeDraw_cases {w : Nat} (raw : Engine → Draw w) (sgn : Bool) (s : State) :
    (s.seeded = false ∧ rangeDraw raw sgn s = .next (s.raise .notSeeded))
    ∨ (s.seeded = true ∧ bounded raw sgn (s.rangeMin w sgn) (s.rangeMax w sgn) s.engine = .invalidRange
        ∧ rangeDraw raw sgn s = .next (s.raise .invalidRange))
    ∨ (s.seeded = true ∧ bounded raw sgn (s.rangeMin w sgn) (s.rangeMax w sgn) s.engine = .neverEnds
        ∧ rangeDraw raw sgn s = .next s.hang)
    ∨ (s.seeded = true ∧ ∃ v engine steps,
        bounded raw sgn (s.rangeMin w sgn) (s.rangeMax w sgn) s.engine = .value v engine steps
        ∧ rangeDraw raw sgn s = .next (s.drew engine steps (widen sgn (BitVec.ofInt w v)))) := by
  unfold rangeDraw
  cases h : s.seeded
  · exact .inl ⟨rfl, rfl⟩
  · cases hb : bounded raw sgn (s.rangeMin w sgn) (s.rangeMax w sgn) s.engine with
    | value v engine steps => exact .inr (.inr (.inr ⟨rfl, v, engine, steps, rfl, rfl⟩))
    | invalidRange => exact .inr (.inl ⟨rfl, rfl, rfl⟩)
    | neverEnds => exact .inr (.inr (.inl ⟨rfl, rfl, rfl⟩))

/-- Everything a command i can do to a state s: it raises an error, never ends (a RANGE), succeeds without a draw, or
draws. -/
def commandEffect (i : Instr) (s t : State) : Prop :=
  (∃ e, t = s.raise e)
  ∨ (isRange i = true ∧ t = s.hang)
  ∨ (i = .nop ∧ t = s.succeed)
  ∨ (i = .seed ∧ (seedExpand s.opa).seeded = true ∧ t = ({ s with engine := seedExpand s.opa } : State).succeed)
  ∨ (i = .capture ∧ s.seeded = true ∧ t = ({ s with snap := pack s.engine } : State).succeed)
  ∨ (i = .restore ∧ s.snap.valid = true ∧ t = ({ s with engine := s.snap.unpack } : State).succeed)
  ∨ (isDraw i = true ∧ s.seeded = true ∧ ∃ engine steps result, t = s.drew engine steps result)

theorem nextDraw_effect {i : Instr} {s : State} {w : Nat} (raw : Engine → Draw w) (sgn : Bool)
    (hd : isDraw i = true) (he : exec i s = nextDraw raw sgn s) : ∃ t, exec i s = .next t ∧ commandEffect i s t := by
  rcases nextDraw_cases raw sgn s with ⟨hs, h⟩ | ⟨-, h⟩
  · exact ⟨_, he.trans h, .inr (.inr (.inr (.inr (.inr (.inr ⟨hd, hs, _, _, _, rfl⟩)))))⟩
  · exact ⟨_, he.trans h, .inl ⟨_, rfl⟩⟩

theorem rangeDraw_effect {i : Instr} {s : State} {w : Nat} (raw : Engine → Draw w) (sgn : Bool)
    (hr : isRange i = true) (he : exec i s = rangeDraw raw sgn s) : ∃ t, exec i s = .next t ∧ commandEffect i s t := by
  rcases rangeDraw_cases raw sgn s with ⟨-, h⟩ | ⟨-, -, h⟩ | ⟨-, -, h⟩ | ⟨hs, v, engine, steps, -, h⟩
  · exact ⟨_, he.trans h, .inl ⟨_, rfl⟩⟩
  · exact ⟨_, he.trans h, .inl ⟨_, rfl⟩⟩
  · exact ⟨_, he.trans h, .inr (.inl ⟨hr, rfl⟩)⟩
  · exact ⟨_, he.trans h,
      .inr (.inr (.inr (.inr (.inr (.inr ⟨by simp [isDraw, hr], hs, _, _, _, rfl⟩)))))⟩

/-- Every command answers a next state, and its effect is one of those of `commandEffect`. -/
theorem exec_effect (i : Instr) (s : State) : ∃ t, exec i s = .next t ∧ commandEffect i s t := by
  cases i with
  | nop => exact ⟨_, rfl, .inr (.inr (.inl ⟨rfl, rfl⟩))⟩
  | seed =>
    by_cases h : (seedExpand s.opa).seeded = true
    · exact ⟨_, if_pos h, .inr (.inr (.inr (.inl ⟨rfl, h, rfl⟩)))⟩
    · exact ⟨_, if_neg h, .inl ⟨_, rfl⟩⟩
  | capture =>
    by_cases h : s.seeded = true
    · exact ⟨_, if_pos h, .inr (.inr (.inr (.inr (.inl ⟨rfl, h, rfl⟩))))⟩
    · exact ⟨_, if_neg h, .inl ⟨_, rfl⟩⟩
  | restore =>
    by_cases h : s.snap.valid = true
    · exact ⟨_, if_pos h, .inr (.inr (.inr (.inr (.inr (.inl ⟨rfl, h, rfl⟩)))))⟩
    · exact ⟨_, if_neg h, .inl ⟨_, rfl⟩⟩
  | nextB => exact nextDraw_effect Engine.raw1 false rfl rfl
  | nextU8 => exact nextDraw_effect Engine.raw8 false rfl rfl
  | nextS8 => exact nextDraw_effect Engine.raw8 true rfl rfl
  | nextU16 => exact nextDraw_effect Engine.raw16 false rfl rfl
  | nextS16 => exact nextDraw_effect Engine.raw16 true rfl rfl
  | nextU32 => exact nextDraw_effect Engine.raw32 false rfl rfl
  | nextS32 => exact nextDraw_effect Engine.raw32 true rfl rfl
  | nextU64 => exact nextDraw_effect Engine.raw64 false rfl rfl
  | nextS64 => exact nextDraw_effect Engine.raw64 true rfl rfl
  | rangeU8 => exact rangeDraw_effect Engine.raw8 false rfl rfl
  | rangeS8 => exact rangeDraw_effect Engine.raw8 true rfl rfl
  | rangeU16 => exact rangeDraw_effect Engine.raw16 false rfl rfl
  | rangeS16 => exact rangeDraw_effect Engine.raw16 true rfl rfl
  | rangeU32 => exact rangeDraw_effect Engine.raw32 false rfl rfl
  | rangeS32 => exact rangeDraw_effect Engine.raw32 true rfl rfl
  | rangeU64 => exact rangeDraw_effect Engine.raw64 false rfl rfl
  | rangeS64 => exact rangeDraw_effect Engine.raw64 true rfl rfl

/-- Everything a step can do when a command is due: the decoded command's effect, or IllegalCommand (R106). -/
theorem step_due_effect {s t : State} (hdue : s.phase = .running 0) (hstep : step s = .next t) :
    (∃ i, decode s.cmd = .ok i ∧ exec i s = .next t ∧ commandEffect i s t)
      ∨ ((∃ e, decode s.cmd = .error e) ∧ t = s.raise .illegalCommand) := by
  have hrun : step s = runCommand s := by simp [step, advance, hdue]
  rw [hrun] at hstep
  unfold runCommand at hstep
  split at hstep
  · rename_i i hd
    obtain ⟨t', h1, h2⟩ := exec_effect i s
    have h3 := h1
    rw [h1] at hstep
    obtain rfl := Host.Outcome.next.inj hstep
    exact .inl ⟨i, hd, h3, h2⟩
  · rename_i e hd
    exact .inr ⟨⟨e, hd⟩, (Host.Outcome.next.inj hstep).symm⟩

end Sys2Proof.Machine
end

