-- ==== Sys2Proof/Laws/PerInstr.lean ====
section
/-! SUPPORT. Per-instruction facts about each command as syntax: its fields pass every check, its word fits in one byte,
and the fields of its word are its fields (30_encoding.md R101-R107). -/

/-- The command is well formed (R103), its word is 0x00 to 0xFF (R101), and its word's fields are its own. -/
def Sys2Proof.Laws.Command.Statement (i : Sys2Proof.Instr) : Prop :=
  i.wf = true ∧ (Sys2Proof.encode i).toNat < 256 ∧ Sys2Proof.Fields.ofWord (Sys2Proof.encode i) = i.fields

namespace Sys2Proof.Laws.Command

theorem nop : Statement .nop := by unfold Statement; decide

theorem seed : Statement .seed := by unfold Statement; decide

theorem nextB : Statement .nextB := by unfold Statement; decide

theorem nextU8 : Statement .nextU8 := by unfold Statement; decide

theorem nextS8 : Statement .nextS8 := by unfold Statement; decide

theorem nextU16 : Statement .nextU16 := by unfold Statement; decide

theorem nextS16 : Statement .nextS16 := by unfold Statement; decide

theorem nextU32 : Statement .nextU32 := by unfold Statement; decide

theorem nextS32 : Statement .nextS32 := by unfold Statement; decide

theorem nextU64 : Statement .nextU64 := by unfold Statement; decide

theorem nextS64 : Statement .nextS64 := by unfold Statement; decide

theorem rangeU8 : Statement .rangeU8 := by unfold Statement; decide

theorem rangeS8 : Statement .rangeS8 := by unfold Statement; decide

theorem rangeU16 : Statement .rangeU16 := by unfold Statement; decide

theorem rangeS16 : Statement .rangeS16 := by unfold Statement; decide

theorem rangeU32 : Statement .rangeU32 := by unfold Statement; decide

theorem rangeS32 : Statement .rangeS32 := by unfold Statement; decide

theorem rangeU64 : Statement .rangeU64 := by unfold Statement; decide

theorem rangeS64 : Statement .rangeS64 := by unfold Statement; decide

theorem capture : Statement .capture := by unfold Statement; decide

theorem restore : Statement .restore := by unfold Statement; decide

end Sys2Proof.Laws.Command
end

