-- ==== Sys2Proof/Laws/Redraw.lean ====
section
/-! SUPPORT. Successive raw draws, and why `engineCount` redraws are as many as the loop of 41_bounded.md R173 can need: an
engine has 495 bits, so among `engineCount + 1` engines two are equal, and a loop that meets an engine twice never ends
(log entry 2). -/

namespace Sys2Proof.Machine

/-! ### Successive raw draws -/

/-- k draws after m draws are m + k draws. -/
theorem drawEngine_add {w : Nat} (raw : Engine → Draw w) (m k : Nat) (e : Engine) :
    drawEngine raw (m + k) e = drawEngine raw k (drawEngine raw m e) := by
  induction m generalizing e with
  | zero => rw [Nat.zero_add]; rfl
  | succ m ih => rw [Nat.succ_add]; exact ih _

/-- The steps of m + k draws are those of the first m and those of the k after them. -/
theorem drawSteps_add {w : Nat} (raw : Engine → Draw w) (m k : Nat) (e : Engine) :
    drawSteps raw (m + k) e = drawSteps raw m e + drawSteps raw k (drawEngine raw m e) := by
  induction m generalizing e with
  | zero => simp [drawSteps, drawEngine]
  | succ m ih => rw [Nat.succ_add]; simp only [drawSteps, drawEngine, ih, Nat.add_assoc]

/-- The engine the k-th draw leaves is the one before the next. -/
theorem drawAt_engine {w : Nat} (raw : Engine → Draw w) (k : Nat) (e : Engine) :
    (drawAt raw k e).engine = drawEngine raw (k + 1) e := by
  rw [drawEngine_add]
  rfl

/-- A relation that holds of every engine with itself, is transitive, and holds across one draw, holds across any number. -/
theorem drawEngine_rel {w : Nat} (raw : Engine → Draw w) (R : Engine → Engine → Prop) (hrefl : ∀ e, R e e)
    (htrans : ∀ e f g, R e f → R f g → R e g) (hraw : ∀ e, R e (raw e).engine) (k : Nat) (e : Engine) :
    R e (drawEngine raw k e) := by
  induction k generalizing e with
  | zero => exact hrefl e
  | succ k ih => exact htrans _ _ _ (hraw e) (ih _)

/-- One turn of the redraw loop (R173). -/
theorem redraw_succ {w : Nat} (raw : Engine → Draw w) (range t fuel : Nat) (d : Draw w) :
    redraw raw range t (fuel + 1) d =
      if lowPart range d.value < t then
        redraw raw range t fuel { raw d.engine with steps := d.steps + (raw d.engine).steps }
      else some d := rfl

/-! ### As many engines as `engineCount` -/

/-- Two appended values are equal only part by part. -/
theorem append_parts {m n : Nat} {a b : BitVec m} {c d : BitVec n} (h : a ++ c = b ++ d) : a = b ∧ c = d := by
  have hbit : ∀ i, (a ++ c).getLsbD i = (b ++ d).getLsbD i := fun i => by rw [h]
  constructor
  · apply BitVec.eq_of_getLsbD_eq
    intro i _
    simpa [BitVec.getLsbD_append] using hbit (n + i)
  · apply BitVec.eq_of_getLsbD_eq
    intro i hi
    simpa only [BitVec.getLsbD_append, hi, if_true] using hbit i

/-- The bits of the optional pending half. -/
def pendingBits : Option (BitVec 32) → BitVec 33
  | none => (0 : BitVec 1) ++ (0 : BitVec 32)
  | some half => (1 : BitVec 1) ++ half

/-- All the bits of an engine. -/
def engineBits (e : Engine) : BitVec (247 + 248) :=
  e.s0 ++ e.s1 ++ e.s2 ++ e.s3 ++ e.boolRem ++ e.boolBits ++ e.byteRem ++ e.byteBits ++ e.wordRem ++ e.wordBits
    ++ pendingBits e.pending32

/-- The pending half is told by its bits. -/
theorem pendingBits_inj {p q : Option (BitVec 32)} (h : pendingBits p = pendingBits q) : p = q := by
  cases p <;> cases q
  · rfl
  · exact absurd (append_parts h).1 (by decide)
  · exact absurd (append_parts h).1 (by decide)
  · rw [(append_parts h).2]

/-- An engine is told by its bits. -/
theorem engineBits_inj {e f : Engine} (h : engineBits e = engineBits f) : e = f := by
  obtain ⟨h, hp⟩ := append_parts h
  obtain ⟨h, h10⟩ := append_parts h
  obtain ⟨h, h9⟩ := append_parts h
  obtain ⟨h, h8⟩ := append_parts h
  obtain ⟨h, h7⟩ := append_parts h
  obtain ⟨h, h6⟩ := append_parts h
  obtain ⟨h, h5⟩ := append_parts h
  obtain ⟨h, h4⟩ := append_parts h
  obtain ⟨h, h3⟩ := append_parts h
  obtain ⟨h1, h2⟩ := append_parts h
  have h11 := pendingBits_inj hp
  cases e
  cases f
  simp_all

/-- Among 2^n + 1 values of n bits two are equal. -/
theorem bits_repeat {n : Nat} (f : Nat → BitVec n) : ∃ i j, i < j ∧ j ≤ 2 ^ n ∧ f i = f j := by
  have hcard : Fintype.card (Fin (2 ^ n)) < Fintype.card (Fin (2 ^ n + 1)) := by simp
  obtain ⟨a, b, hne, heq⟩ :=
    Fintype.exists_ne_map_eq_of_card_lt (fun k : Fin (2 ^ n + 1) => (f k).toFin) hcard
  have hf : f a = f b := BitVec.eq_of_toNat_eq (congrArg Fin.val heq)
  have hval : a.val ≠ b.val := fun h => hne (Fin.ext h)
  rcases Nat.lt_or_ge a.val b.val with h | h
  · exact ⟨a, b, h, by omega, hf⟩
  · exact ⟨b, a, by omega, by omega, hf.symm⟩

/-- The same of m + n bits, the bound as a product. -/
theorem bits_repeat_mul (m n : Nat) (f : Nat → BitVec (m + n)) : ∃ i j, i < j ∧ j ≤ 2 ^ m * 2 ^ n ∧ f i = f j := by
  rw [← Nat.pow_add]
  exact bits_repeat f

/-- Among `engineCount + 1` successive engines two are equal. -/
theorem engine_repeats (g : Nat → Engine) : ∃ i j, i < j ∧ j ≤ engineCount ∧ g i = g j := by
  obtain ⟨i, j, hij, hj, h⟩ := bits_repeat_mul 247 248 fun k => engineBits (g k)
  exact ⟨i, j, hij, hj, engineBits_inj h⟩

end Sys2Proof.Machine
end

