-- ==== Sys2Proof/Tests/Slice0.lean ====
section
/-! SUPPORT. Tests of single steps against the values spec/ prints (95_test_vectors.md and the worked examples of the rules),
the well-formedness smoke tests, one decoded word per command, and a witness for the hypotheses of every obligation that
has any. -/

namespace Sys2Proof.Tests

open Sys2Proof Sys2Proof.Machine

/-! ### Helpers -/

/-- The outcome is a next state with property p. -/
def ends (o : Host.Outcome State Fault Refusal) (p : State → Bool) : Bool :=
  match o with
  | .next t => p t
  | .fault _ => false
  | .refused _ => false

/-- The step that ends command word v in state s. -/
def due (v : Word) (s : State) : Host.Outcome State Fault Refusal := step (s.commandDue v)

/-- The block after RESTORE of an image, everything else as at reset. -/
def fromImage (m : Image) : State := { State.reset with engine := m.unpack, snap := m }

/-- The image of S = (1, 2, 3, 4) with these buffers and this last register. -/
def image1234 (bools bytes words last : Word) : Image := ⟨1, 2, 3, 4, bools, bytes, words, last⟩

/-- S = (1, 2, 3, 4), every cache empty (V2). -/
def plain1234 : State := fromImage (image1234 0 0 0 0)

/-- The image of S = (1, 0, 0, 0), buffers 0, with this last register (V7.4 to V7.13). -/
def image1000 (last : Word) : State := { seedOne with snap := ⟨1, 0, 0, 0, 0, 0, 0, last⟩ }

/-- A block with a command in progress that n more events leave running. -/
def busyFor (n : Nat) (events : List HostEvent) : State := { seedOne with phase := .running n, host := events }

/-- A hung block. -/
def hungWith (events : List HostEvent) : State := { seedOne with cmd := 0x13, phase := .hung, host := events }

/-- An idle block with these events to come. -/
def idleWith (events : List HostEvent) : State := { seedOne with host := events }

/-! ### Well-formedness: each check refuses an ill-formed command word (30_encoding.md R103, R107) -/

/-- Every command of the table passes. -/
theorem test_wf_all : [Instr.nop, .seed, .nextB, .nextU8, .nextS64, .rangeU8, .rangeS64, .capture, .restore].all Instr.wf
    = true := by decide

theorem test_wf_reservedZero : (⟨2, 1, 0, 1⟩ : Fields).reservedZero = false ∧ (⟨2, 1, 0, 1⟩ : Fields).wf = false := by
  decide

theorem test_wf_opNamed : (⟨6, 0, 0, 0⟩ : Fields).opNamed = false ∧ (⟨6, 0, 0, 0⟩ : Fields).wf = false := by decide

theorem test_wf_widthNamed : (⟨3, 5, 0, 0⟩ : Fields).widthNamed = false ∧ (⟨3, 5, 0, 0⟩ : Fields).wf = false := by decide

theorem test_wf_booleanOk : (⟨3, 0, 0, 0⟩ : Fields).booleanOk = false ∧ (⟨3, 0, 0, 0⟩ : Fields).wf = false
    ∧ (⟨2, 0, 1, 0⟩ : Fields).wf = false := by decide

theorem test_wf_plainZero : (⟨4, 1, 0, 0⟩ : Fields).plainZero = false ∧ (⟨4, 1, 0, 0⟩ : Fields).wf = false
    ∧ (⟨5, 0, 1, 0⟩ : Fields).wf = false := by decide

/-! ### Decoding: the word of each command, its fields {RSV, SGN, WID, OP} written out from R105 -/

theorem test_decode_nop : decode ((0 : BitVec 56) ++ 0b0#1 ++ 0b000#3 ++ 0b0000#4) = .ok .nop := by decide

theorem test_decode_seed : decode ((0 : BitVec 56) ++ 0b0#1 ++ 0b000#3 ++ 0b0001#4) = .ok .seed := by decide

theorem test_decode_nextB : decode ((0 : BitVec 56) ++ 0b0#1 ++ 0b000#3 ++ 0b0010#4) = .ok .nextB := by decide

theorem test_decode_nextU8 : decode ((0 : BitVec 56) ++ 0b0#1 ++ 0b001#3 ++ 0b0010#4) = .ok .nextU8 := by decide

theorem test_decode_nextS8 : decode ((0 : BitVec 56) ++ 0b1#1 ++ 0b001#3 ++ 0b0010#4) = .ok .nextS8 := by decide

theorem test_decode_nextU16 : decode ((0 : BitVec 56) ++ 0b0#1 ++ 0b010#3 ++ 0b0010#4) = .ok .nextU16 := by decide

theorem test_decode_nextS16 : decode ((0 : BitVec 56) ++ 0b1#1 ++ 0b010#3 ++ 0b0010#4) = .ok .nextS16 := by decide

theorem test_decode_nextU32 : decode ((0 : BitVec 56) ++ 0b0#1 ++ 0b011#3 ++ 0b0010#4) = .ok .nextU32 := by decide

theorem test_decode_nextS32 : decode ((0 : BitVec 56) ++ 0b1#1 ++ 0b011#3 ++ 0b0010#4) = .ok .nextS32 := by decide

theorem test_decode_nextU64 : decode ((0 : BitVec 56) ++ 0b0#1 ++ 0b100#3 ++ 0b0010#4) = .ok .nextU64 := by decide

theorem test_decode_nextS64 : decode ((0 : BitVec 56) ++ 0b1#1 ++ 0b100#3 ++ 0b0010#4) = .ok .nextS64 := by decide

theorem test_decode_rangeU8 : decode ((0 : BitVec 56) ++ 0b0#1 ++ 0b001#3 ++ 0b0011#4) = .ok .rangeU8 := by decide

theorem test_decode_rangeS8 : decode ((0 : BitVec 56) ++ 0b1#1 ++ 0b001#3 ++ 0b0011#4) = .ok .rangeS8 := by decide

theorem test_decode_rangeU16 : decode ((0 : BitVec 56) ++ 0b0#1 ++ 0b010#3 ++ 0b0011#4) = .ok .rangeU16 := by decide

theorem test_decode_rangeS16 : decode ((0 : BitVec 56) ++ 0b1#1 ++ 0b010#3 ++ 0b0011#4) = .ok .rangeS16 := by decide

theorem test_decode_rangeU32 : decode ((0 : BitVec 56) ++ 0b0#1 ++ 0b011#3 ++ 0b0011#4) = .ok .rangeU32 := by decide

theorem test_decode_rangeS32 : decode ((0 : BitVec 56) ++ 0b1#1 ++ 0b011#3 ++ 0b0011#4) = .ok .rangeS32 := by decide

theorem test_decode_rangeU64 : decode ((0 : BitVec 56) ++ 0b0#1 ++ 0b100#3 ++ 0b0011#4) = .ok .rangeU64 := by decide

theorem test_decode_rangeS64 : decode ((0 : BitVec 56) ++ 0b1#1 ++ 0b100#3 ++ 0b0011#4) = .ok .rangeS64 := by decide

theorem test_decode_capture : decode ((0 : BitVec 56) ++ 0b0#1 ++ 0b000#3 ++ 0b0100#4) = .ok .capture := by decide

theorem test_decode_restore : decode ((0 : BitVec 56) ++ 0b0#1 ++ 0b000#3 ++ 0b0101#4) = .ok .restore := by decide

/-- The illegal values of V8, each with the reason R107 names. -/
theorem test_decode_illegal :
    decode 0x0000000100000001 = .error .reservedBits ∧ decode 0x103 = .error .reservedBits
      ∧ decode 0x03 = .error .booleanRange ∧ decode 0x82 = .error .signedBoolean ∧ decode 0x11 = .error .fieldsNotZero
      ∧ decode 0x84 = .error .fieldsNotZero ∧ decode 0x52 = .error .reservedWidth ∧ decode 0xF3 = .error .reservedWidth
      ∧ decode 0x06 = .error .reservedOp ∧ decode 0x0F = .error .reservedOp := by decide

/-- The table's numbering of bits: the least significant bit of `CMD` is bit 0 (R10, R105). -/
theorem test_tableWord : decodeTableWord 64 0x93 = some .rangeS8 ∧ decodeTableWord 64 0x52 = none
    ∧ decodeTableWord 8 0x42 = some .nextU64 := by decide

/-! ### The byte lanes (20_memory.md R83) -/

theorem test_lanes_littleEndian : lanes 0x0807060504030201 = [1, 2, 3, 4, 5, 6, 7, 8] := by decide

/-! ### Single steps -/

/-- R150: with `ERR` = 2, NOP leaves `ERR` = 0; allowed in the unseeded state. -/
theorem test_nop : ends (due 0x00 { State.reset with err := 2 }) (fun t => t.err == 0 && t.phase == .idle && !t.seeded)
    = true := by decide

/-- R146: `OPA` = 1. -/
theorem test_seed : ends (due 0x01 { State.reset with opa := 1 }) (fun t => t.engine == seedOne.engine && t.err == 0)
    = true := by decide

/-- V1, last row: one word of S is zero, and SEED succeeds. -/
theorem test_seed_oneZeroWord : ends (due 0x01 { State.reset with opa := 0x61C8864680B583EB })
    (fun t => t.engine.s0 == 0 && t.engine.s1 == 0xE220A8397B1DCDAF && t.engine.s3 == 0x06C45D188009454F && t.err == 0)
    = true := by decide

/-- R206: the first draw from seed 1 is the lowest bit of 0x...C5. -/
theorem test_nextB : ends (due 0x02 seedOne)
    (fun t => t.result == 1 && t.engine.boolRem == 63 && t.stepCount == 1) = true := by decide

/-- V4, last crafted row: bit 0 of 0x2D00. -/
theorem test_nextB_image : ends (due 0x02 plain1234)
    (fun t => t.result == 0 && t.engine.boolRem == 63 && t.engine.boolBits == 0x1680) = true := by decide

/-- V4: the first byte from seed 1. -/
theorem test_nextU8 : ends (due 0x12 seedOne)
    (fun t => t.result == 0xC5 && t.engine.byteRem == 7 && t.stepCount == 1) = true := by decide

/-- V4, crafted: raw byte 0x80 gives -128. -/
theorem test_nextS8 : ends (due 0x92 (fromImage (image1234 0 0x80 0 0x100)))
    (fun t => t.result == 0xFFFFFFFFFFFFFF80 && t.engine.byteRem == 0 && t.stepCount == 0) = true := by decide

/-- V4, crafted: the lowest unit first. -/
theorem test_nextU16 : ends (due 0x22 (fromImage (image1234 0 0 0x1111222233334444 0x40000)))
    (fun t => t.result == 0x4444 && t.engine.wordRem == 3 && t.engine.wordBits == 0x111122223333) = true := by decide

/-- V4: from the last unit of the cache, -20627 is left to draw. -/
theorem test_nextS16 : ends (due 0xA2 (fromImage (image1234 0 0 0xAF6D 0x10000)))
    (fun t => t.result == 0xFFFFFFFFFFFFAF6D && t.engine.wordRem == 0 && t.stepCount == 0) = true := by decide

/-- V4, crafted: the pending half is returned and cleared, with no step. -/
theorem test_nextU32 : ends (due 0x32 (fromImage (image1234 0 0 0 0xDEADBEEF01000000)))
    (fun t => t.result == 0xDEADBEEF && t.engine.pending32 == none && t.stepCount == 0) = true := by decide

/-- V4: the low half first, the high half pending. -/
theorem test_nextU32_low : ends (due 0x32 seedOne)
    (fun t => t.result == 0x0FC710C5 && t.engine.pending32 == some 0xB3F2AF6D && t.stepCount == 1) = true := by decide

/-- V4: -1275941011 from the pending half. -/
theorem test_nextS32 : ends (due 0xB2 (fromImage (image1234 0 0 0 0xB3F2AF6D01000000)))
    (fun t => t.result == 0xFFFFFFFFB3F2AF6D) = true := by decide

/-- V2, step 1 by hand. -/
theorem test_nextU64 : ends (due 0x42 plain1234)
    (fun t => t.result == 0x2D00 && t.engine.s0 == 7 && t.engine.s1 == 0 && t.engine.s2 == 0x40002 && t.engine.s3 == 0xC00000000000) = true := by decide

/-- V3: a pending half stays pending. -/
theorem test_nextU64_keepsPending : ends (due 0x42 (fromImage (image1234 0 0 0 0xDEADBEEF01000000)))
    (fun t => t.result == 0x2D00 && t.engine.pending32 == some 0xDEADBEEF) = true := by decide

/-- R149: the same 64 bits. -/
theorem test_nextS64 : ends (due 0xC2 seedOne)
    (fun t => t.result == BitVec.ofInt 64 (-5480124913605472059) && t.stepCount == 1) = true := by decide

/-- V6, first row: two redraws through the cache, no engine step. -/
theorem test_rangeU8_redraws : ends (due 0x13 { fromImage (image1234 0 0xA00000 0 0x300) with opa := 10, opb := 12 })
    (fun t => t.result == 11 && t.engine.byteRem == 0 && t.stepCount == 0) = true := by decide

/-- V6, third row: low = t is accepted. -/
theorem test_rangeU8_thresholdStrict : ends (due 0x13 { fromImage (image1234 0 0x56 0 0x100) with opa := 0, opb := 5 })
    (fun t => t.result == 2 && t.stepCount == 0) = true := by decide

/-- V5.8: [-128, 126] is not the full range. -/
theorem test_rangeS8 : ends (due 0x93 (seedOneWith (-128) 126))
    (fun t => t.result == 68 && t.engine.byteRem == 7) = true := by decide

/-- V5.7: max < min as signed values. -/
theorem test_rangeS8_invalid : ends (due 0x93 (seedOneWith 5 (-5)))
    (fun t => t.err == 2 && t.result == 0 && t.stepCount == 0) = true := by decide

/-- V5.13. -/
theorem test_rangeU16 : ends (due 0x23 (seedOneWith 100 200))
    (fun t => t.result == 106 && t.engine.wordRem == 3) = true := by decide

/-- V5.12. -/
theorem test_rangeS16 : ends (due 0xA3 (seedOneWith (-1000) 1000))
    (fun t => t.result == 0xFFFFFFFFFFFFFC9B) = true := by decide

/-- V5.16: range = 2^32 - 1. -/
theorem test_rangeU32 : ends (due 0x33 (seedOneWith 0 0xFFFFFFFE))
    (fun t => t.result == 0x0FC710C4 && t.engine.pending32 == some 0xB3F2AF6D) = true := by decide

/-- V5.19: the full range is one raw draw. -/
theorem test_rangeS32 : ends (due 0xB3 (seedOneWith (-2147483648) 2147483647))
    (fun t => t.result == 264704197 && t.stepCount == 1) = true := by decide

/-- V5.26: one redraw. -/
theorem test_rangeU64 : ends (due 0x43 (seedOneWith 0 9223372036854775808))
    (fun t => t.result == 0x429DAACB239B2675 && t.stepCount == 2) = true := by decide

/-- V5.29: the difference exceeds 2^63. -/
theorem test_rangeS64 : ends (due 0xC3 (seedOneWith (-9223372036854775808) 9223372036854775806))
    (fun t => t.result == 0x33F2AF6D0FC710C4 && t.stepCount == 1) = true := by decide

/-- V5.28: path 1, no draw. -/
theorem test_rangeS64_single : ends (due 0xC3 (seedOneWith (-3) (-3)))
    (fun t => t.result == 0xFFFFFFFFFFFFFFFD && t.stepCount == 0) = true := by decide

/-- V7.14: the pending value of an absent half is captured as 0. -/
theorem test_capture : ends (due 0x04 (fromImage (image1234 0 0 0 0xDEADBEEF00000000)))
    (fun t => t.snap == image1234 0 0 0 0 && t.err == 0) = true := by decide

/-- R230: counters and the pending half in `SNAP7`. -/
theorem test_capture_pending : ends (due 0x04 { seedOne with engine := { seedOne.engine with boolRem := 63, pending32 := some 0x15780B2E } })
    (fun t => t.snap.snap7 == 0x15780B2E0100003F && t.snap.snap3 == 0x71C18690EE42C90B) = true := by decide

/-- V7.15: RESTORE in the unseeded state seeds the block. -/
theorem test_restore : ends (due 0x05 { State.reset with snap := image1234 0 0 0 0 })
    (fun t => t.err == 0 && t.status == 0x2 && t.engine.s3 == 4) = true := by decide

/-- V7.4 to V7.13: the shape tests, each at the first illegal value, and the upper limits. -/
theorem test_restore_shape :
    ([0x80, 0x900, 0x50000, 0x2000000, 0x1000, 0x80000, 0x41] : List Word).all
        (fun last => ends (due 0x05 (image1000 last)) fun t => t.err == 3 && t.engine == seedOne.engine) = true
      ∧ ([0x40, 0x800, 0x40000] : List Word).all (fun last => ends (due 0x05 (image1000 last)) fun t => t.err == 0) = true := by
  decide

/-- V8: an illegal value changes nothing but `ERR`; `STATUS` then reads 0x52. -/
theorem test_illegal : ([0x100000001, 0x103, 0x03, 0x82, 0x11, 0x14, 0x15, 0x84, 0x52, 0x62, 0x73, 0xF3, 0x06, 0x0F] :
    List Word).all (fun v => ends (due v seedOne) fun t =>
      t.err == 5 && t.status == 0x52 && t.engine == seedOne.engine && t.stepCount == 0) = true := by decide

/-- V9: from reset, every draw and CAPTURE end with NotSeeded, path 1 and `max < min` of a RANGE too. -/
theorem test_unseeded : ([0x12, 0x02, 0x42, 0x13, 0x04] : List Word).all (fun v =>
    ends (due v { State.reset with opa := 3, opb := 3 }) fun t => t.err == 4 && t.status == 0x40) = true
      ∧ ends (due 0x13 { State.reset with opa := 5, opb := 3 }) (fun t => t.err == 4) = true := by decide

/-- The first step after reset with a command placed runs it. -/
theorem test_withFetchWord : ends (step (State.reset.withFetchWord 64 0x00)) (fun t => t.err == 0 && t.phase == .idle) = true
    ∧ ends (step (State.reset.withFetchWord 64 0x42)) (fun t => t.err == 4) = true := by decide

/-- P5, steps 7 and 8: `STATUS` reads 0x102 with `OVR` set, and writing 0x100 clears it. -/
theorem test_status_overrun : ({ seedOne with ovr := true } : State).status = 0x102
    ∧ (({ seedOne with ovr := true } : State).hostWrite 0x100 .status).status = 0x2
    ∧ (({ seedOne with ovr := true } : State).hostWrite 0xFF .status).status = 0x102 := by decide

/-- P5, step 4: a write while busy is dropped and sets `OVR`. -/
theorem test_write_while_busy : ((busyFor 1 []).hostWrite 5 .opb).opb = 0 ∧ ((busyFor 1 []).hostWrite 5 .opb).ovr = true := by
  decide

/-- R297, D16: while busy a read of `OPA` takes a free value; `STATUS` reads right and a reserved slot reads as 0. -/
theorem test_read_while_busy : ((busyFor 1 []).hostRead .opa).freeIndex = 1
    ∧ ((busyFor 1 []).hostRead .status).lastRead = some 0x3
    ∧ ((busyFor 1 []).hostRead .reserved30).lastRead = some 0 := by decide

/-- R46: the reserved slots read as 0 and ignore a write. -/
theorem test_reserved_slots : seedOne.readReg .reserved30 = 0 ∧ (seedOne.hostWrite 7 .reserved30) = seedOne
    ∧ (seedOne.hostWrite 7 .result) = seedOne := by decide

/-- R114: `draw.U64` is the command, a `WAIT` and a read of `RESULT`. -/
theorem test_listDraw : listDraw 0 .nextU64
    = [.write 0 Reg.cmd.addr 8 0x42, .wait 0, .read 0 Reg.result.addr 8] := by rfl

/-- R113: a negative decimal operand is its two's-complement pattern. -/
theorem test_wrInt : wrInt 0 .opa (-10) = .write 0 Reg.opa.addr 8 0xFFFFFFFFFFFFFFF6 := by rfl

/-! ### Witnesses: a state and operands that meet all the hypotheses of each obligation -/

theorem test_meets_LegalCommandsAreTheTable : decode 0x93 = .ok .rangeS8 ∧ decode 0x94 ≠ .ok .capture := by decide

/-- Each case of R107 at its first value. -/
theorem test_meets_IllegalValuesSetErrFive :
    ([0x100, 0x06, 0x53, 0x82, 0x03, 0x10, 0x85] : List Word).all (fun v =>
      let s : State := seedOne.commandDue v
      s.cmd == v && s.phase == .running 0 && (decode v).toOption.isNone) = true := by decide

/-- Lanes 0 and 7, the ends of the range. -/
theorem test_meets_ByteLanesAreLittleEndian :
    (0 < 8 ∧ seedOne.readLane .opa 0 = 1) ∧ (7 < 8 ∧ (plain1234.readLane .snap0 7) = 0) := by decide

theorem test_meets_StepRunsDecodedCommand :
    let s := seedOne.commandDue 0x42
    s.phase = .running 0 ∧ decode s.cmd = .ok .nextU64 := by decide

theorem test_meets_StepsWithoutHostEvents :
    (seedOne.phase = .idle ∧ seedOne.host = []) ∧ ((hungWith []).phase = .hung ∧ (hungWith []).host = [])
      ∧ ((busyFor 0 []).phase = .running 0 ∧ (busyFor 3 []).phase = .running 3 ∧ (busyFor 3 []).host = []
        ∧ decode (busyFor 3 []).cmd = .ok .nop) := by decide

/-- Offsets 0 and 0x78. -/
theorem test_meets_WindowMap : (0 < 128 ∧ 0 % 8 = 0) ∧ (0x78 < 128 ∧ 0x78 % 8 = 0) ∧ Reg.snap7.offset = 0x78 := by decide

/-- A state and an access for each clause: the first address past the window, a 4-byte access, a misaligned one, a defined
one. -/
theorem test_meets_UndefinedAccessIsRefused :
    (idleWith [.write 0 (Config.base + 128) 8 0]).phase ≠ .running 0
      ∧ (idleWith [.write 0 (Config.base + 128) 8 0]).host = .write 0 (Config.base + 128) 8 0 :: []
      ∧ Config.base + 128 ≤ Config.base + 128
      ∧ (idleWith [.read 0 Config.base 4]).host = .read 0 Config.base 4 :: []
      ∧ ¬(Config.base < Config.base ∨ Config.base + 128 ≤ Config.base) ∧ 4 ≠ 8
      ∧ (idleWith [.read 0 (Config.base + 1) 8]).host = .read 0 (Config.base + 1) 8 :: []
      ∧ (Config.base + 1) % 8 ≠ 0
      ∧ (idleWith [.read 0 (Config.base + 0x78) 8]).host = .read 0 (Config.base + 0x78) 8 :: []
      ∧ (Config.base + 0x78) % 8 = 0
      ∧ (idleWith []).owner = none := by
  refine ⟨by decide, rfl, Nat.le_refl _, rfl, by omega, by decide, rfl, ?_, rfl, ?_, rfl⟩
  · unfold Config.base; omega
  · unfold Config.base; omega

theorem test_meets_SecondHostIsRefused :
    let s : State := { idleWith [.wait 2] with owner := some 1 }
    let u : State := { idleWith [] with owner := some 1 }
    (s.phase ≠ .running 0 ∧ s.owner = some 1 ∧ 2 ≠ 1 ∧ s.host = .wait 2 :: []) ∧ (u.owner = some 1 ∧ step u = .next u) :=
  ⟨by decide, rfl, rfl⟩

/-- A write of the first slot, of `STATUS` with bit 8, and of the last slot. -/
theorem test_meets_WritesWhileIdle :
    ∀ w ∈ [(Reg.cmd, (0x42 : Word)), (.status, 0x100), (.snap7, 5)],
      let s := idleWith [.write 3 w.1.addr 8 w.2]
      s.phase = .idle ∧ s.host = .write 3 w.1.addr 8 w.2 :: [] ∧ s.owner = none := by
  intro w _
  exact ⟨rfl, rfl, rfl⟩

theorem test_meets_ReadsWhileIdle :
    let s : State := { idleWith [.read 3 Reg.snap7.addr 8] with owner := some 3 }
    s.phase = .idle ∧ s.host = .read 3 Reg.snap7.addr 8 :: [] ∧ s.owner = some 3 := ⟨rfl, rfl, rfl⟩

theorem test_meets_WriteWhileBusyIsDropped :
    ((busyFor 1 [.write 3 Reg.opb.addr 8 5]).host = .write 3 Reg.opb.addr 8 5 :: []
        ∧ (busyFor 1 [.write 3 Reg.opb.addr 8 5]).owner = none
        ∧ (busyFor 1 [.write 3 Reg.opb.addr 8 5]).phase = .running (0 + 1))
      ∧ (hungWith [.write 3 Reg.cmd.addr 8 5]).host = .write 3 Reg.cmd.addr 8 5 :: []
        ∧ (hungWith [.write 3 Reg.cmd.addr 8 5]).phase = .hung := ⟨⟨rfl, rfl, rfl⟩, rfl, rfl⟩

/-- A busy and a hung block; a slot of the free list, `STATUS`, `OPA`, `OPB`, a reserved slot. -/
theorem test_meets_ReadWhileBusy :
    ∀ r ∈ [Reg.result, .status, .opa, .opb, .reserved38],
      ((busyFor 1 [.read 3 r.addr 8]).busy = true ∧ (busyFor 1 [.read 3 r.addr 8]).phase ≠ .running 0
          ∧ (busyFor 1 [.read 3 r.addr 8]).host = .read 3 r.addr 8 :: [] ∧ (busyFor 1 [.read 3 r.addr 8]).owner = none)
        ∧ (hungWith [.read 3 r.addr 8]).busy = true ∧ (hungWith [.read 3 r.addr 8]).phase ≠ .running 0
          ∧ (hungWith [.read 3 r.addr 8]).host = .read 3 r.addr 8 :: [] := by
  intro r _
  exact ⟨⟨rfl, (fun h => by cases h), rfl, rfl⟩, rfl, (fun h => by cases h), rfl⟩

theorem test_meets_WaitPollsStatus :
    (idleWith [.wait 3]).host = .wait 3 :: [] ∧ (idleWith [.wait 3]).owner = none ∧ (idleWith [.wait 3]).phase = .idle
      ∧ (busyFor 1 [.wait 3]).host = .wait 3 :: [] ∧ (busyFor 1 [.wait 3]).phase = .running (0 + 1)
      ∧ (hungWith [.wait 3]).host = .wait 3 :: [] ∧ (hungWith [.wait 3]).phase = .hung :=
  ⟨rfl, rfl, rfl, rfl, rfl, rfl, rfl⟩

/-- The first access of a run gives a next state while no command is due. -/
theorem access_steps {s : State} {r : Reg} {v : Word} {rest : List HostEvent} (hdue : s.phase ≠ .running 0)
    (howner : s.owner = none)
    (hhost : s.host = .write 3 r.addr 8 v :: rest ∨ s.host = .read 3 r.addr 8 :: rest ∨ s.host = .wait 3 :: rest) :
    ∃ t, step s = .next t := by
  rw [step_of_not_due hdue]
  rcases hhost with h | h | h
  · exact ⟨_, by simp only [hostTurn, h]; exact hostAccess_ok r _ (.inl howner)⟩
  · exact ⟨_, by simp only [hostTurn, h]; exact hostAccess_ok r _ (.inl howner)⟩
  · exact ⟨_, by simp only [hostTurn, h]; exact hostAccess_ok .status _ (.inl howner)⟩

/-- A next state for each case of the statement: a command ends, no event, a write while busy, a write of `STATUS`, a read,
a `WAIT`, a reset. -/
theorem test_meets_OverrunFlag :
    (∃ t, step (busyFor 0 []) = .next t) ∧ (∃ t, step (idleWith []) = .next t)
      ∧ (∃ t, step (busyFor 1 [.write 3 Reg.opb.addr 8 5]) = .next t)
      ∧ (∃ t, step (idleWith [.write 3 Reg.status.addr 8 0x100]) = .next t)
      ∧ (∃ t, step (idleWith [.read 3 Reg.result.addr 8]) = .next t)
      ∧ (∃ t, step (idleWith [.wait 3]) = .next t) ∧ ∃ t, step (idleWith [.reset]) = .next t :=
  ⟨⟨_, rfl⟩, ⟨_, rfl⟩, access_steps (fun h => by cases h) rfl (.inl rfl), access_steps (fun h => by cases h) rfl (.inl rfl),
    access_steps (v := 0) (fun h => by cases h) rfl (.inr (.inl rfl)),
    access_steps (r := .status) (v := 0) (fun h => by cases h) rfl (.inr (.inr rfl)), ⟨_, rfl⟩⟩

/-- An idle and a busy block, each with a write to come. -/
theorem test_meets_HostAccessFrame :
    ((idleWith [.write 3 Reg.opb.addr 8 5]).phase ≠ .running 0 ∧ ¬resetNext (idleWith [.write 3 Reg.opb.addr 8 5])
        ∧ ∃ t, step (idleWith [.write 3 Reg.opb.addr 8 5]) = .next t)
      ∧ (busyFor 1 [.write 3 Reg.opb.addr 8 5]).phase ≠ .running 0
        ∧ ¬resetNext (busyFor 1 [.write 3 Reg.opb.addr 8 5])
        ∧ (busyFor 1 [.write 3 Reg.opb.addr 8 5]).phase ≠ .idle
        ∧ ∃ t, step (busyFor 1 [.write 3 Reg.opb.addr 8 5]) = .next t := by
  refine ⟨⟨(fun h => by cases h), ?_, access_steps (fun h => by cases h) rfl (.inl rfl)⟩, (fun h => by cases h), ?_,
    (fun h => by cases h), access_steps (fun h => by cases h) rfl (.inl rfl)⟩
  all_goals
    rintro ⟨_, _, h⟩
    cases h

theorem test_meets_EngineIsHiddenFromAccesses :
    let s := idleWith [.read 3 Reg.status.addr 8]
    let f : Engine := { seedOne.engine with s0 := 5, boolRem := 64, pending32 := some 1 }
    s.phase ≠ .running 0 ∧ f.seeded = s.seeded := ⟨(fun h => by cases h), by decide⟩

theorem test_meets_ResetAbandonsEverything :
    ((hungWith [.reset]).phase ≠ .running 0 ∧ (hungWith [.reset]).host = .reset :: [])
      ∧ (busyFor 2 [.reset]).phase ≠ .running 0 ∧ (busyFor 2 [.reset]).host = .reset :: [] := by decide

/-- Two steps. -/
theorem test_meets_OnlyResetEndsAHang :
    (hungWith []).phase = .hung ∧ .reset ∉ (hungWith []).host ∧ core.run 2 (hungWith []) = .next (hungWith []) :=
  ⟨rfl, by decide, rfl⟩

/-- The ends of the range of a rotation; a draw while unseeded and one while seeded. -/
theorem test_meets_EngineStepUpdate : 0 < 1 ∧ 1 < 64 ∧ 0 < 63 ∧ 63 < 64 ∧ rotl 0x1 63 = 0x8000000000000000
    ∧ isDraw .nextU8 = true ∧ State.reset.seeded = false ∧ seedOne.seeded = true := by decide

/-- A host write, and due: an illegal value, NEXT.U64 seeded and unseeded, SEED, RESTORE of a valid and of the zero image. -/
theorem test_meets_OnlyCountedStepsChangeThePermutation :
    ((∃ t, step (idleWith [.write 3 Reg.opb.addr 8 5]) = .next t) ∧ ¬resetNext (idleWith [.write 3 Reg.opb.addr 8 5])
        ∧ (idleWith [.write 3 Reg.opb.addr 8 5]).phase ≠ .running 0)
      ∧ (∀ s : State, ¬resetNext (s.commandDue 0x06) ∧ (s.commandDue 0x06).phase = .running 0)
      ∧ (∀ s ∈ [seedOne, State.reset], ends (due 0x06 s) (fun t => t.err == 5) = true
        ∧ ends (due 0x42 s) (fun t => t.seeded == s.seeded) = true)
      ∧ ends (due 0x01 seedOne) (fun t => t.err == 0) = true
      ∧ ends (due 0x05 plain1234) (fun t => t.err == 0) = true
      ∧ ends (due 0x05 seedOne) (fun t => t.err != 0) = true :=
  ⟨⟨access_steps (fun h => by cases h) rfl (.inl rfl), (fun h => by obtain ⟨_, _, h⟩ := h; cases h), (fun h => by cases h)⟩,
    fun _ => ⟨fun h => h.1 rfl, rfl⟩, by decide, by decide, by decide, by decide⟩

/-- The clauses of `rangeTook`: unseeded (V9), path 1 (V5.5), path 3 (V5.6), path 2 (V5.3), path 4 with three redraws
(V5.10). The clause of a hang has no witness: no state is known in which every draw is redrawn. -/
theorem test_meets_rangeTook :
    let s := seedOneWith 0 128
    let x := fun k => (drawAt Engine.raw8 k s.engine).value
    ends (due 0x13 State.reset) (fun t => t.err == 4) = true
      ∧ ((seedOneWith 7 7).rangeMin 8 false = (seedOneWith 7 7).rangeMax 8 false
        ∧ ends (due 0x13 (seedOneWith 7 7)) (fun t => t.err == 0) = true)
      ∧ ((seedOneWith 5 3).rangeMax 8 false < (seedOneWith 5 3).rangeMin 8 false
        ∧ ends (due 0x13 (seedOneWith 5 3)) (fun t => t.err == 2) = true)
      ∧ (((seedOneWith 0 255).rangeMin 8 false = rangeLo 8 false ∧ (seedOneWith 0 255).rangeMax 8 false = rangeHi 8 false)
        ∧ ends (due 0x13 (seedOneWith 0 255)) (fun t => t.stepCount == 1) = true)
      ∧ s.seeded = true ∧ s.rangeMin 8 false < s.rangeMax 8 false
      ∧ ¬(s.rangeMin 8 false = rangeLo 8 false ∧ s.rangeMax 8 false = rangeHi 8 false)
      ∧ (s.rangeMax 8 false - s.rangeMin 8 false + 1).toNat = 129
      ∧ (∀ j, j < 3 → redraws 129 (x j)) ∧ ¬redraws 129 (x 3)
      ∧ ends (due 0x13 s) (fun t => t.stepCount == 1) = true := by
  unfold redraws
  decide

theorem test_meets_EngineStepIsInvertible :
    let e := plain1234.engine
    let f := seedOne.engine
    let g : Engine := { Engine.reset with
      s0 := e.s0 ^^^ f.s0, s1 := e.s1 ^^^ f.s1, s2 := e.s2 ^^^ f.s2, s3 := e.s3 ^^^ f.s3 }
    g.s0 = e.s0 ^^^ f.s0 ∧ g.s1 = e.s1 ^^^ f.s1 ∧ g.s2 = e.s2 ^^^ f.s2 ∧ g.s3 = e.s3 ^^^ f.s3 := ⟨rfl, rfl, rfl, rfl⟩

/-- Both clauses on the seed of the NEXT, RANGE and CAPTURE statements. -/
theorem test_meets_seeded_and_unseeded : seedOne.seeded = true ∧ State.reset.seeded = false := by decide

/-- The full ranges of the NEXT statements. -/
theorem test_meets_fullRanges :
    (∀ s ∈ [seedOneWith 0 0xFF, { seedOne with opa := 0x1200, opb := 0xFF }],
        s.opa.extractLsb' 0 8 = 0 ∧ s.opb.extractLsb' 0 8 = 0xFF)
      ∧ (seedOneWith (-128) 127).opa.extractLsb' 0 8 = 0x80 ∧ (seedOneWith (-128) 127).opb.extractLsb' 0 8 = 0x7F
      ∧ (seedOneWith 0 0xFFFF).opb.extractLsb' 0 16 = 0xFFFF ∧ (seedOneWith (-32768) 32767).opa.extractLsb' 0 16 = 0x8000
      ∧ (seedOneWith 0 0xFFFFFFFF).opb.extractLsb' 0 32 = 0xFFFFFFFF
      ∧ (seedOneWith (-2147483648) 2147483647).opa.extractLsb' 0 32 = 0x80000000
      ∧ (seedOneWith 0 (-1)).opb = 0xFFFFFFFFFFFFFFFF
      ∧ (seedOneWith (-9223372036854775808) 9223372036854775807).opa = 0x8000000000000000 := by decide

theorem test_meets_Next32Commands :
    let s := fromImage (image1234 0 0 0 0xDEADBEEF01000000)
    (s.seeded = true ∧ s.engine.pending32 = some 0xDEADBEEF) ∧ seedOne.seeded = true ∧ seedOne.engine.pending32 = none := by
  decide

/-- Engines that agree in the permutation state and in one cache, and differ in the others. -/
theorem test_meets_CachesAreIndependent :
    let e := seedOne.engine
    let f : Engine := { e with byteRem := 3, wordRem := 1, pending32 := some 7 }
    let g : Engine := { e with boolRem := 9 }
    samePermutation e f ∧ sameCache .bool e f ∧ samePermutation e g ∧ sameCache .byte e g ∧ sameCache .word e g
      ∧ sameCache .half e g ∧ g.boolRem ≠ 0 ∧ f.byteRem ≠ 0 ∧ f.wordRem ≠ 0 ∧ f.pending32 ≠ none :=
  ⟨⟨rfl, rfl, rfl, rfl⟩, ⟨rfl, rfl⟩, ⟨rfl, rfl, rfl, rfl⟩, ⟨rfl, rfl⟩, ⟨rfl, rfl⟩, rfl, by decide, by decide, by decide,
    by decide⟩

/-- Empty caches, a state of a run, and the stale buffer a RESTORE may load. -/
theorem test_meets_EngineStepsPerDraw :
    (seedOne.engine.boolRem = 0 ∧ seedOne.engine.byteRem = 0 ∧ seedOne.engine.wordRem = 0
        ∧ seedOne.engine.pending32 = none)
      ∧ buffersFit seedOne.engine
      ∧ ¬(seedOne.phase = .running 0 ∧ decode seedOne.cmd = .ok .restore) ∧ (∃ t, step seedOne = .next t)
      ∧ ends (exec .seed State.reset) (fun t => t.err == 0) = true :=
  ⟨by decide, ⟨by decide, by decide, by decide⟩, (fun h => by cases h.1), ⟨_, rfl⟩, by decide⟩

/-- The least and the greatest width. -/
theorem test_meets_OperandsAndResults : (0 < 1 ∧ 1 ≤ 64) ∧ (0 < 64 ∧ 64 ≤ 64)
    ∧ (seedOneWith (-10) 10).rangeMin 8 true = -10 ∧ (seedOneWith (-10) 10).rangeMin 8 false = 246 := by decide

/-- The four paths of `Bounded_W` (V5.5, V5.3, V5.6, V5.1); path 4 with no redraw and with three (V5.10). -/
theorem test_meets_Range8Commands :
    let x := fun k => (drawAt Engine.raw8 k seedOne.engine).value
    ((seedOneWith 7 7).rangeMin 8 false = (seedOneWith 7 7).rangeMax 8 false)
      ∧ ((seedOneWith 0 255).rangeMin 8 false = 0 ∧ (seedOneWith 0 255).rangeMax 8 false = 2 ^ 8 - 1)
      ∧ ((seedOneWith 5 3).rangeMax 8 false < (seedOneWith 5 3).rangeMin 8 false)
      ∧ ((seedOneWith 0 5).rangeMin 8 false < (seedOneWith 0 5).rangeMax 8 false
        ∧ (x 0).toNat * 6 % 2 ^ 8 ≥ (2 ^ 8 - 6) % 6)
      ∧ ((seedOneWith 0 128).rangeMin 8 false < (seedOneWith 0 128).rangeMax 8 false
        ∧ (∀ j, j < 3 → (x j).toNat * 129 % 2 ^ 8 < (2 ^ 8 - 129) % 129)
        ∧ (x 3).toNat * 129 % 2 ^ 8 ≥ (2 ^ 8 - 129) % 129) := by decide

/-- Path 4 with its first draw accepted, for the other widths: V5.13, V5.18, V5.22; path 4 with one redraw: V5.26. -/
theorem test_meets_Range16_32_64Commands :
    ((drawAt Engine.raw16 0 seedOne.engine).value.toNat * 101 % 2 ^ 16 ≥ (2 ^ 16 - 101) % 101)
      ∧ ((drawAt Engine.raw32 0 seedOne.engine).value.toNat * 11 % 2 ^ 32 ≥ (2 ^ 32 - 11) % 11)
      ∧ ((drawAt Engine.raw64 0 seedOne.engine).value.toNat * 6 % 2 ^ 64 ≥ (2 ^ 64 - 6) % 6)
      ∧ ((drawAt Engine.raw64 0 seedOne.engine).value.toNat * (2 ^ 63 + 1) % 2 ^ 64 < (2 ^ 64 - (2 ^ 63 + 1)) % (2 ^ 63 + 1)
        ∧ (drawAt Engine.raw64 1 seedOne.engine).value.toNat * (2 ^ 63 + 1) % 2 ^ 64
          ≥ (2 ^ 64 - (2 ^ 63 + 1)) % (2 ^ 63 + 1)) := by decide

/-- Paths 1, 2 and 3 for the other widths and for signed operands (V5.15, V5.11, V5.20, V5.24, V5.27, V5.7). -/
theorem test_meets_RangePaths : ∀ w ∈ [8, 16, 32, 64],
    (∀ sgn, (seedOneWith 9 9).rangeMin w sgn = (seedOneWith 9 9).rangeMax w sgn)
      ∧ ((seedOneWith 0 (2 ^ w - 1)).rangeMin w false = 0 ∧ (seedOneWith 0 (2 ^ w - 1)).rangeMax w false = 2 ^ w - 1)
      ∧ ((seedOneWith (-2 ^ (w - 1)) (2 ^ (w - 1) - 1)).rangeMin w true = -2 ^ (w - 1)
        ∧ (seedOneWith (-2 ^ (w - 1)) (2 ^ (w - 1) - 1)).rangeMax w true = 2 ^ (w - 1) - 1)
      ∧ (seedOneWith 10 3).rangeMax w false < (seedOneWith 10 3).rangeMin w false
      ∧ (seedOneWith 5 (-5)).rangeMax w true < (seedOneWith 5 (-5)).rangeMin w true := by decide

theorem test_meets_LemireEndsAtFirstAcceptedDraw :
    2 ≤ 129 ∧ 129 ≤ 2 ^ 8 - 1 ∧ (∀ j, j < 3 → redraws 129 (drawAt Engine.raw8 j seedOne.engine).value)
      ∧ ¬redraws 129 (drawAt Engine.raw8 3 seedOne.engine).value := by
  unfold redraws
  decide

/-- The ends of the range of `range`; and a draw primitive for which every draw is redrawn. -/
theorem test_meets_RangeHangsIffEveryDrawIsRedrawn :
    (2 ≤ 2 ∧ 2 ≤ 2 ^ 8 - 1) ∧ (2 ≤ 255 ∧ 255 ≤ 2 ^ 8 - 1)
      ∧ ∀ (k : Nat) (e : Engine), redraws 255 (drawAt (fun e => ⟨0, e, 1⟩ : Engine → Draw 8) k e).value :=
  ⟨by decide, by decide, fun _ _ => show redraws 255 (0 : BitVec 8) by unfold redraws; decide⟩

theorem test_meets_ThresholdBySubtraction : (2 ≤ 2 ∧ 2 ≤ 2 ^ 8 - 1) ∧ 2 ≤ 255 ∧ 255 ≤ 2 ^ 8 - 1
    ∧ threshold 8 129 = 127 := by decide

/-- [-128, 126] signed (V5.8) and [0, 254] unsigned (V5.9): the widest ranges of path 4. -/
theorem test_meets_RangeArithmeticFitsWidth :
    (readAs true (0x80 : BitVec 8) < readAs true (0x7E : BitVec 8)
        ∧ ¬(readAs true (0x80 : BitVec 8) = rangeLo 8 true ∧ readAs true (0x7E : BitVec 8) = rangeHi 8 true))
      ∧ readAs false (0x00 : BitVec 8) < readAs false (0xFE : BitVec 8)
        ∧ ¬(readAs false (0x00 : BitVec 8) = rangeLo 8 false ∧ readAs false (0xFE : BitVec 8) = rangeHi 8 false) := by
  decide

theorem test_meets_RangeResultInBounds : rangeForm .rangeS8 = some (8, true)
    ∧ ends (exec .rangeS8 (seedOneWith (-10) 10)) (fun t => t.phase == .idle && t.err == 0) = true := by decide

/-- Paths 1, 3, 2 and 4 (k = 0) of `Bounded_8`, operands at the ends of the type. -/
theorem test_meets_EntropyConsumed :
    0 < 8 ∧ rangeLo 8 true ≤ -128 ∧ (-128 : Int) ≤ rangeHi 8 true ∧ rangeLo 8 true ≤ 127 ∧ 127 ≤ rangeHi 8 true
      ∧ (-128 = rangeLo 8 true ∧ 127 = rangeHi 8 true) ∧ (127 : Int) = 127 ∧ (5 : Int) < 127
      ∧ ¬((-10 : Int) = rangeLo 8 true ∧ (10 : Int) = rangeHi 8 true)
      ∧ ¬(drawAt Engine.raw8 0 seedOne.engine).value.toNat * (10 - (-10) + 1 : Int).toNat % 2 ^ 8
          < (2 ^ 8 - (10 - (-10) + 1 : Int).toNat) % (10 - (-10) + 1 : Int).toNat := by decide

/-- [1, 6] is on path 4 in both readings. -/
theorem test_meets_SignednessChangesOnlyTheReading :
    (∃ t, exec .nextU8 seedOne = .next t)
      ∧ (∀ sgn, (seedOneWith 1 6).rangeMin 8 sgn < (seedOneWith 1 6).rangeMax 8 sgn
        ∧ ¬((seedOneWith 1 6).rangeMin 8 sgn = rangeLo 8 sgn ∧ (seedOneWith 1 6).rangeMax 8 sgn = rangeHi 8 sgn))
      ∧ ends (exec .rangeU8 (seedOneWith 1 6)) (fun t => t.err == 0) = true := ⟨⟨_, rfl⟩, by decide, by decide⟩

/-- A valid image at the upper limit of each counter, an invalid one just above it, and the zero image. -/
theorem test_meets_RestoreCommand :
    (image1000 0x40840).snap.valid = true ∧ (image1000 0x40841).snap.valid = false
      ∧ (image1000 0x40940).snap.valid = false ∧ (image1000 0x50840).snap.valid = false
      ∧ State.reset.snap.snap0 = 0 ∧ State.reset.snap.snap1 = 0 ∧ State.reset.snap.snap2 = 0
      ∧ State.reset.snap.snap3 = 0 := by decide

/-- Counters at their upper limits. -/
theorem test_meets_CaptureRestoreRoundTrip :
    let s : State := { seedOne with engine := { seedOne.engine with boolRem := 64, byteRem := 8, wordRem := 4 } }
    s.seeded = true ∧ countersOk s.engine := ⟨by decide, ⟨by decide, by decide, by decide⟩⟩

theorem test_meets_ReplayFromSnapshot :
    countersOk plain1234.engine ∧ plain1234.seeded = true
      ∧ exec .capture plain1234 = .next plain1234
      ∧ ends (exec .restore { seedOne with snap := plain1234.snap }) (fun t => t.err == 0) = true :=
  ⟨⟨by decide, by decide, by decide⟩, by decide, rfl, by decide⟩

theorem test_meets_SameSeedSameAnswers :
    seedOne.opa = ({ plain1234 with opa := 1 } : State).opa ∧ (∃ t, exec .seed seedOne = .next t)
      ∧ ∃ t, exec .seed { plain1234 with opa := 1 } = .next t := ⟨rfl, ⟨_, rfl⟩, ⟨_, rfl⟩⟩

theorem test_meets_FailedCommandChangesOnlyErr :
    ends (exec .capture State.reset) (fun t => t.phase == .idle && t.err != 0) = true := by decide

/-- A command of each class of R262. -/
theorem test_meets_CodesOfEachCommand :
    ([.nop, .seed, .nextU8, .rangeU8, .capture, .restore] : List Instr).all
        (fun i => ends (exec i seedOne) fun t => t.phase == .idle) = true
      ∧ isNext .nextU8 = true ∧ isRange .rangeU8 = true := by decide

/-- A state for each branch: an illegal value, a draw while unseeded, both outcomes of a RANGE, both of RESTORE. -/
theorem test_meets_ErrorCausesInOrder :
    ends (due 0x06 State.reset) (fun t => t.phase == .idle) = true
      ∧ ends (due 0x12 State.reset) (fun t => t.phase == .idle) = true
      ∧ ends (due 0x13 (seedOneWith 5 3)) (fun t => t.phase == .idle) = true
      ∧ ends (due 0x13 (seedOneWith 0 5)) (fun t => t.phase == .idle) = true
      ∧ ends (due 0x05 seedOne) (fun t => t.phase == .idle) = true
      ∧ ends (due 0x05 plain1234) (fun t => t.phase == .idle) = true := by decide

/-- A command that does not draw, one that draws, and the two that leave the EngineState. -/
theorem test_meets_CommandFrame :
    (∃ t, exec .seed seedOne = .next t) ∧ isDraw .seed = false ∧ (∃ t, exec .nextU16 seedOne = .next t)
      ∧ isDraw .nextU16 = true ∧ cacheOf .nextU16 ≠ some .byte ∧ (∃ t, exec .nop seedOne = .next t)
      ∧ ∃ t, exec .capture seedOne = .next t :=
  ⟨⟨_, rfl⟩, by decide, ⟨_, rfl⟩, by decide, by decide, ⟨_, rfl⟩, ⟨_, rfl⟩⟩

theorem test_meets_SeededUntilReset :
    ends (exec .restore plain1234) (fun t => t.err == 0) = true ∧ ends (exec .seed State.reset) (fun t => t.err == 0) = true
      ∧ seedOne.seeded = true ∧ ¬resetNext seedOne ∧ ∃ t, step seedOne = .next t :=
  ⟨by decide, by decide, by decide, (fun h => by obtain ⟨_, _, h⟩ := h; cases h), ⟨_, rfl⟩⟩

/-- A seeded block in which a command is due, and a hung one. -/
theorem test_meets_StepKeepsInvariant :
    (invariant (seedOne.commandDue 0x42) ∧ ∃ t, step (seedOne.commandDue 0x42) = .next t)
      ∧ invariant (hungWith []) ∧ ∃ t, step (hungWith []) = .next t :=
  ⟨⟨⟨⟨by decide, by decide, by decide⟩, fun h => absurd h (by decide), by decide, (fun h => by cases h)⟩, _, rfl⟩,
    ⟨⟨by decide, by decide, by decide⟩, fun h => absurd h (by decide), by decide, fun _ => ⟨by decide, .rangeU8, by decide,
      by decide⟩⟩, _, rfl⟩

theorem test_meets_OnlyHostAccessesStop : (busyFor 0 []).phase = .running 0 := by decide

end Sys2Proof.Tests
end

/-! PROOFS. The fields of `STATUS`, the window, `OVR`, what hides the EngineState, `SEEDED`, and replay from an image
(10_state.md). -/

namespace Sys2Proof.Machine

/-! ### The fields of `STATUS` (R36) -/

@[simp] theorem bit_getElem_zero (b : Bool) : (bit b)[0] = b := by cases b <;> rfl

/-- `STATUS` with its width written as the sum of its fields' widths, so that the library's rules about `++` apply. -/
theorem State.status_eq_append (s : State) :
    (s.status : BitVec (55 + 1 + 4 + 2 + 1 + 1))
      = (0 : BitVec 55) ++ bit s.ovr ++ s.err ++ (0 : BitVec 2) ++ bit s.seeded ++ bit s.busy := rfl

theorem State.status_busy (s : State) : s.status.getLsbD 0 = s.busy := by
  simp only [State.status_eq_append, BitVec.getLsbD_append]
  simp

theorem State.status_seeded (s : State) : s.status.getLsbD 1 = s.seeded := by
  simp only [State.status_eq_append, BitVec.getLsbD_append]
  simp

theorem State.status_ovr (s : State) : s.status.getLsbD 8 = s.ovr := by
  simp only [State.status_eq_append, BitVec.getLsbD_append]
  simp

theorem State.status_err (s : State) : s.status.extractLsb' 4 4 = s.err := by
  simp (disch := decide) only [State.status_eq_append, BitVec.extractLsb'_append_eq_of_le,
    BitVec.extractLsb'_append_eq_of_add_le]
  simp

theorem State.status_reserved3_2 (s : State) : s.status.extractLsb' 2 2 = 0 := by
  simp (disch := decide) only [State.status_eq_append, BitVec.extractLsb'_append_eq_of_le,
    BitVec.extractLsb'_append_eq_of_add_le]
  simp

theorem State.status_reserved63_9 (s : State) : s.status.extractLsb' 9 55 = 0 := by
  simp (disch := decide) only [State.status_eq_append, BitVec.extractLsb'_append_eq_of_le]
  simp

/-! ### The slots of the window (R34) -/

theorem regOfSlot_offset_eq : ∀ k, k < 16 → (regOfSlot k).offset = 8 * k := by decide

/-! ### `OVR` after a host write and after a command (R39) -/

theorem State.writeReg_ovr (s : State) (v : Word) (r : Reg) :
    (s.writeReg v r).ovr = true ↔ s.ovr = true ∧ ¬(r = .status ∧ v.getLsbD 8 = true) := by
  cases r with
  | status => simp [State.writeReg]
  | _ => simp [State.writeReg]

theorem State.hostWrite_ovr (s : State) (v : Word) (r : Reg) :
    (s.hostWrite v r).ovr = true ↔ s.busy = true ∨ (s.ovr = true ∧ ¬(r = .status ∧ v.getLsbD 8 = true)) := by
  unfold State.hostWrite
  split
  · simp [*]
  · rw [State.writeReg_ovr]; simp [*]

@[simp] theorem State.hostRead_ovr (s : State) (r : Reg) : (s.hostRead r).ovr = s.ovr := by
  rw [State.hostRead_frame]

@[simp] theorem State.passEvent_ovr (s : State) : s.passEvent.ovr = s.ovr := by
  rw [s.passEvent_eq.1]

theorem commandEffect.ovr {i : Instr} {s t : State} (h : commandEffect i s t) : t.ovr = s.ovr := by
  rcases h with ⟨e, rfl⟩ | ⟨-, rfl⟩ | ⟨-, rfl⟩ | ⟨-, -, rfl⟩ | ⟨-, -, rfl⟩ | ⟨-, -, rfl⟩ | ⟨-, -, _, _, _, rfl⟩ <;> rfl

theorem step_due_ovr {s t : State} (hdue : s.phase = .running 0) (hstep : step s = .next t) : t.ovr = s.ovr := by
  rcases step_due_effect hdue hstep with ⟨i, -, -, heffect⟩ | ⟨-, rfl⟩
  · exact heffect.ovr
  · rfl

/-! ### The EngineState behind the window (R47) -/

/-- The block with another EngineState. -/
def State.withEngine (s : State) (f : Engine) : State := { s with engine := f }

@[simp] theorem State.withEngine_busy (s : State) (f : Engine) : (s.withEngine f).busy = s.busy := rfl

theorem State.withEngine_status {s : State} {f : Engine} (hf : f.seeded = s.seeded) :
    (s.withEngine f).status = s.status := by
  have hseeded : (s.withEngine f).seeded = s.seeded := hf
  rw [State.status, hseeded]
  rfl

theorem State.withEngine_readReg {s : State} {f : Engine} (hf : f.seeded = s.seeded) (r : Reg) :
    (s.withEngine f).readReg r = s.readReg r := by
  cases r with
  | status => exact State.withEngine_status hf
  | _ => rfl

theorem State.withEngine_hostRead {s : State} {f : Engine} (hf : f.seeded = s.seeded) (r : Reg) :
    (s.withEngine f).hostRead r = (s.hostRead r).withEngine f := by
  unfold State.hostRead
  rw [State.withEngine_busy, State.withEngine_readReg hf]
  split <;> rfl

theorem State.withEngine_hostWrite (s : State) (f : Engine) (v : Word) (r : Reg) :
    (s.withEngine f).hostWrite v r = (s.hostWrite v r).withEngine f := by
  unfold State.hostWrite
  rw [State.withEngine_busy]
  split
  · rfl
  · cases r <;> rfl

theorem State.withEngine_passEvent (s : State) (f : Engine) :
    (s.withEngine f).passEvent = s.passEvent.withEngine f := by
  obtain ⟨_, _, _, _, phase, _, _, _, _, _, _, _, _, _⟩ := s
  cases phase with
  | running n => cases n <;> rfl
  | _ => rfl

@[simp] theorem State.passEvent_seeded (s : State) : s.passEvent.seeded = s.seeded := by
  rw [s.passEvent_eq.1]
  rfl

/-- Two outcomes a host cannot tell apart: the same refusal, or next states that differ in the EngineState only. -/
def hiddenAlike (o o' : Host.Outcome State Fault Refusal) : Prop :=
  (∃ r, o = .refused r ∧ o' = .refused r) ∨ ∃ t g, o = .next t ∧ o' = .next (t.withEngine g)

theorem State.withEngine_claim (s : State) (f : Engine) (agent : Nat) :
    (s.withEngine f).claim agent = (s.claim agent).map (State.withEngine · f) := by
  have howner : (s.withEngine f).owner = s.owner := rfl
  unfold State.claim
  rw [howner]
  split
  · rfl
  · split <;> rfl

theorem State.claim_seeded {s u : State} {agent : Nat} (h : s.claim agent = .ok u) : u.seeded = s.seeded := by
  rcases s.claim_cases agent with ⟨-, hc⟩ | hc <;> rw [hc] at h <;> cases h
  rfl

/-- An access whose effect does not depend on the EngineState is refused, or has its effect, whatever the EngineState. -/
theorem hostAccess_hiddenAlike {s : State} {f : Engine} {effect : State → Reg → State} (hf : f.seeded = s.seeded)
    (heffect : ∀ (u : State) (r : Reg), f.seeded = u.seeded → effect (u.withEngine f) r = (effect u r).withEngine f)
    (agent addr size : Nat) :
    hiddenAlike (hostAccess s agent addr size effect) (hostAccess (s.withEngine f) agent addr size effect) := by
  unfold hostAccess
  rw [State.withEngine_claim]
  cases hclaim : s.claim agent with
  | error e => exact .inl ⟨e, rfl, rfl⟩
  | ok u =>
    cases accessTarget addr size with
    | error e => exact .inl ⟨e, rfl, rfl⟩
    | ok r =>
      have hu : f.seeded = u.passEvent.seeded := by rw [State.passEvent_seeded, State.claim_seeded hclaim, hf]
      refine .inr ⟨effect u.passEvent r, f, rfl, ?_⟩
      rw [← heffect _ r hu, ← State.withEngine_passEvent]
      rfl

theorem hostTurn_hiddenAlike {s : State} {f : Engine} (hf : f.seeded = s.seeded) :
    hiddenAlike (hostTurn s) (hostTurn (s.withEngine f)) := by
  have hhost : (s.withEngine f).host = s.host := rfl
  unfold hostTurn
  rw [hhost, State.withEngine_busy]
  cases s.host with
  | nil => exact .inr ⟨_, f, rfl, by rw [State.withEngine_passEvent]⟩
  | cons event rest =>
    cases event with
    | write agent addr size v =>
      exact hostAccess_hiddenAlike (s := { s with host := rest }) (effect := fun t r => t.hostWrite v r) hf
        (fun u r _ => u.withEngine_hostWrite f v r) agent addr size
    | read agent addr size =>
      exact hostAccess_hiddenAlike (s := { s with host := rest }) hf
        (fun _ r hu => State.withEngine_hostRead hu r) agent addr size
    | wait agent =>
      exact hostAccess_hiddenAlike (s := { s with host := if s.busy then .wait agent :: rest else rest }) hf
        (fun _ r hu => State.withEngine_hostRead hu r) agent _ 8
    | reset => exact .inr ⟨_, Engine.reset, rfl, rfl⟩

/-! ### `SEEDED` (R31, R37) -/

theorem eq_zero_of_shiftLeft_eq_self {w n : Nat} {x : BitVec w} (hn : 0 < n) (h : x <<< n = x) : x = 0 := by
  apply BitVec.eq_of_getLsbD_eq
  intro i hi
  induction i using Nat.strong_induction_on with
  | _ i ih =>
    rw [← h, BitVec.getLsbD_shiftLeft]
    by_cases hlt : i < n
    · simp [hlt]
    · simp [hi, hlt, ih (i - n) (by omega) (by omega)]

theorem eq_zero_of_rotl_eq_zero {a : Word} {k : Nat} (hk : k < 64) (h : rotl a k = 0) : a = 0 := by
  obtain ⟨hlow, hhigh⟩ : a <<< k = 0 ∧ a >>> (64 - k) = 0 := BitVec.or_eq_zero_iff.mp h
  apply BitVec.eq_of_getLsbD_eq
  intro i hi
  by_cases hlt : i < 64 - k
  · have hbit := congrArg (·.getLsbD (i + k)) hlow
    simpa [show i + k < 64 by omega, hi] using hbit
  · have hbit := congrArg (·.getLsbD (i - (64 - k))) hhigh
    simpa [show 64 - k + (i - (64 - k)) = i by omega, hi] using hbit

/-- The engine step never reaches the all-zero permutation state from another: each of its lines can be undone (R140). -/
theorem Engine.advance_seeded {e : Engine} (h : e.seeded = true) : e.advance.seeded = true := by
  by_contra hne
  rw [Bool.not_eq_true, Engine.seeded_eq_false_iff] at hne
  obtain ⟨hs0, hs1, hs2, hs3⟩ := hne
  have h31 : e.s3 = e.s1 := BitVec.xor_eq_zero_iff.mp (eq_zero_of_rotl_eq_zero (by decide) hs3)
  have h0 : e.s0 = 0 := by simpa [Engine.advance, h31] using hs0
  have h12 : e.s1 = e.s2 := by simpa [Engine.advance, h0] using hs1
  have h2 : e.s2 = e.s1 <<< 17 := by simpa [Engine.advance, h0] using hs2
  have h1 : e.s1 = 0 := eq_zero_of_shiftLeft_eq_self (by decide) (h2.symm.trans h12.symm)
  have hzero : e.seeded = false := e.seeded_eq_false_iff.mpr ⟨h0, h1, h12.symm.trans h1, h31.trans h1⟩
  rw [hzero] at h
  cases h

/-- `raw` is one of the five raw draws (R200-R204). -/
inductive IsRawDraw : {w : Nat} → (Engine → Draw w) → Prop where
  | raw1 : IsRawDraw Engine.raw1
  | raw8 : IsRawDraw Engine.raw8
  | raw16 : IsRawDraw Engine.raw16
  | raw32 : IsRawDraw Engine.raw32
  | raw64 : IsRawDraw Engine.raw64

/-- A raw draw leaves the permutation state, or takes it one engine step on. -/
theorem IsRawDraw.permutation {w : Nat} {raw : Engine → Draw w} (h : IsRawDraw raw) (e : Engine) :
    ((raw e).steps = 0 ∧ samePermutation (raw e).engine e)
      ∨ ((raw e).steps = 1 ∧ samePermutation (raw e).engine e.advance) := by
  cases h with
  | raw1 =>
    by_cases hrem : e.boolRem = 0
    · rw [Engine.raw1_of_empty hrem]; exact .inr ⟨rfl, rfl, rfl, rfl, rfl⟩
    · rw [Engine.raw1_of_left hrem]; exact .inl ⟨rfl, rfl, rfl, rfl, rfl⟩
  | raw8 =>
    by_cases hrem : e.byteRem = 0
    · rw [Engine.raw8_of_empty hrem]; exact .inr ⟨rfl, rfl, rfl, rfl, rfl⟩
    · rw [Engine.raw8_of_left hrem]; exact .inl ⟨rfl, rfl, rfl, rfl, rfl⟩
  | raw16 =>
    by_cases hrem : e.wordRem = 0
    · rw [Engine.raw16_of_empty hrem]; exact .inr ⟨rfl, rfl, rfl, rfl, rfl⟩
    · rw [Engine.raw16_of_left hrem]; exact .inl ⟨rfl, rfl, rfl, rfl, rfl⟩
  | raw32 =>
    cases hpending : e.pending32 with
    | none => rw [Engine.raw32_of_absent hpending]; exact .inr ⟨rfl, rfl, rfl, rfl, rfl⟩
    | some half => rw [Engine.raw32_of_pending hpending]; exact .inl ⟨rfl, rfl, rfl, rfl, rfl⟩
  | raw64 => exact .inr ⟨rfl, rfl, rfl, rfl, rfl⟩

theorem samePermutation.seeded_eq {e f : Engine} (h : samePermutation e f) : e.seeded = f.seeded := by
  obtain ⟨h0, h1, h2, h3⟩ := h
  simp only [Engine.seeded, h0, h1, h2, h3]

theorem IsRawDraw.seeded {w : Nat} {raw : Engine → Draw w} (h : IsRawDraw raw) {e : Engine} (hs : e.seeded = true) :
    (raw e).engine.seeded = true := by
  rcases h.permutation e with ⟨-, hp⟩ | ⟨-, hp⟩
  · rw [hp.seeded_eq, hs]
  · rw [hp.seeded_eq, Engine.advance_seeded hs]

/-! ### What every raw draw keeps of an engine, every drawing command keeps -/

/-- Every drawing command is a NEXT or a RANGE over one of the raw draws. -/
theorem exec_of_isDraw {i : Instr} (h : isDraw i = true) :
    ∃ (w : Nat) (raw : Engine → Draw w) (sgn : Bool), IsRawDraw raw
      ∧ (exec i = nextDraw raw sgn ∨ exec i = rangeDraw raw sgn) := by
  cases i with
  | nop => cases h
  | seed => cases h
  | capture => cases h
  | restore => cases h
  | nextB => exact ⟨1, _, false, .raw1, .inl rfl⟩
  | nextU8 => exact ⟨8, _, false, .raw8, .inl rfl⟩
  | nextS8 => exact ⟨8, _, true, .raw8, .inl rfl⟩
  | nextU16 => exact ⟨16, _, false, .raw16, .inl rfl⟩
  | nextS16 => exact ⟨16, _, true, .raw16, .inl rfl⟩
  | nextU32 => exact ⟨32, _, false, .raw32, .inl rfl⟩
  | nextS32 => exact ⟨32, _, true, .raw32, .inl rfl⟩
  | nextU64 => exact ⟨64, _, false, .raw64, .inl rfl⟩
  | nextS64 => exact ⟨64, _, true, .raw64, .inl rfl⟩
  | rangeU8 => exact ⟨8, _, false, .raw8, .inr rfl⟩
  | rangeS8 => exact ⟨8, _, true, .raw8, .inr rfl⟩
  | rangeU16 => exact ⟨16, _, false, .raw16, .inr rfl⟩
  | rangeS16 => exact ⟨16, _, true, .raw16, .inr rfl⟩
  | rangeU32 => exact ⟨32, _, false, .raw32, .inr rfl⟩
  | rangeS32 => exact ⟨32, _, true, .raw32, .inr rfl⟩
  | rangeU64 => exact ⟨64, _, false, .raw64, .inr rfl⟩
  | rangeS64 => exact ⟨64, _, true, .raw64, .inr rfl⟩

section Kept

variable {w : Nat} {raw : Engine → Draw w} {P : Engine → Prop} (hraw : ∀ e, P e → P (raw e).engine)
include hraw

theorem redraw_keeps {range t fuel : Nat} {d r : Draw w} (hd : P d.engine) (h : redraw raw range t fuel d = some r) :
    P r.engine := by
  induction fuel generalizing d with
  | zero => cases h
  | succ fuel ih =>
    rw [redraw_succ] at h
    split at h
    · refine ih ?_ h
      exact hraw _ hd
    · cases h
      exact hd

theorem lemire_keeps {range : Nat} {e : Engine} {d : Draw w} (he : P e) (h : lemire raw range e = some d) :
    P d.engine := by
  unfold lemire at h
  obtain ⟨r, hr, rfl⟩ := Option.map_eq_some_iff.mp h
  change P r.engine
  split at hr
  · exact redraw_keeps hraw (hraw e he) hr
  · cases hr
    exact hraw e he

theorem bounded_keeps {sgn : Bool} {min max v : Int} {e f : Engine} {steps : Nat} (he : P e)
    (h : bounded raw sgn min max e = .value v f steps) : P f := by
  rcases bounded_cases raw sgn min max e with
    ⟨-, hb⟩ | ⟨-, -, hb⟩ | ⟨-, -, -, hb⟩ | ⟨-, -, -, hb⟩ | ⟨-, -, d, hd, hb⟩ <;> rw [hb] at h <;> cases h
  · exact he
  · exact hraw e he
  · exact lemire_keeps hraw he hd

theorem nextDraw_keeps {sgn : Bool} {s t : State} (hs : P s.engine) (h : nextDraw raw sgn s = .next t) :
    P t.engine := by
  rcases nextDraw_cases raw sgn s with ⟨-, hn⟩ | ⟨-, hn⟩ <;> rw [hn] at h <;> cases h
  · exact hraw _ hs
  · exact hs

theorem rangeDraw_keeps {sgn : Bool} {s t : State} (hs : P s.engine) (h : rangeDraw raw sgn s = .next t) :
    P t.engine := by
  rcases rangeDraw_cases raw sgn s with ⟨-, hr⟩ | ⟨-, -, hr⟩ | ⟨-, -, hr⟩ | ⟨-, v, f, steps, hb, hr⟩ <;>
    rw [hr] at h <;> cases h
  · exact hs
  · exact hs
  · exact hs
  · exact bounded_keeps hraw hs hb

end Kept

/-- A drawing command keeps what every raw draw keeps of an engine. -/
theorem exec_isDraw_keeps {P : Engine → Prop}
    (hraw : ∀ {w : Nat} {raw : Engine → Draw w}, IsRawDraw raw → ∀ e, P e → P (raw e).engine)
    {i : Instr} {s t : State} (hi : isDraw i = true) (hs : P s.engine) (h : exec i s = .next t) : P t.engine := by
  obtain ⟨w, raw, sgn, hr, he | he⟩ := exec_of_isDraw hi
  · exact nextDraw_keeps (hraw hr) hs (he ▸ h)
  · exact rangeDraw_keeps (hraw hr) hs (he ▸ h)

/-! ### `SEEDED` through a step -/

theorem ErrorKind.code_ne_zero (e : ErrorKind) : e.code ≠ 0 := by cases e <;> decide

theorem Image.unpack_seeded {m : Image} (h : m.valid = true) : m.unpack.seeded = true := by
  simp only [Image.valid, Bool.and_eq_true, and_assoc] at h
  exact h.1

theorem exec_keeps_seeded {i : Instr} {s t : State} (hs : s.seeded = true) (h : exec i s = .next t) :
    t.seeded = true := by
  obtain ⟨t', h', heffect⟩ := exec_effect i s
  obtain rfl : t' = t := Host.Outcome.next.inj (h'.symm.trans h)
  rcases heffect with ⟨e, rfl⟩ | ⟨-, rfl⟩ | ⟨-, rfl⟩ | ⟨-, hexp, rfl⟩ | ⟨-, -, rfl⟩ | ⟨-, hv, rfl⟩ | ⟨hd, -, -⟩
  · exact hs
  · exact hs
  · exact hs
  · exact hexp
  · exact hs
  · exact Image.unpack_seeded hv
  · exact exec_isDraw_keeps (P := fun e => e.seeded = true) (fun hr _ he => hr.seeded he) hd hs h

/-- A host event other than a reset leaves the EngineState. -/
theorem hostTurn_engine {s t : State} (hreset : ∀ rest, s.host ≠ .reset :: rest) (h : hostTurn s = .next t) :
    t.engine = s.engine := by
  rcases hostTurn_next h with ⟨-, rfl⟩ | ⟨_, _, _, _, -, -, rfl⟩ | ⟨_, _, _, -, -, rfl⟩ | ⟨_, _, -, -, rfl⟩ | ⟨rest, hh, -⟩
  · rw [s.passEvent_eq.1]
  · rw [State.hostWrite_frame, (State.passEvent_eq _).1]
  · rw [State.hostRead_frame, (State.passEvent_eq _).1]
  · rw [State.hostRead_frame, (State.passEvent_eq _).1]
  · exact absurd hh (hreset rest)

theorem step_keeps_seeded {s t : State} (hs : s.seeded = true) (hreset : ¬resetNext s) (h : step s = .next t) :
    t.seeded = true := by
  by_cases hdue : s.phase = .running 0
  · rcases step_due_effect hdue h with ⟨i, -, hexec, -⟩ | ⟨-, rfl⟩
    · exact exec_keeps_seeded hs hexec
    · exact hs
  · rw [step_of_not_due hdue] at h
    have hengine := hostTurn_engine (fun rest hh => hreset ⟨hdue, rest, hh⟩) h
    rw [State.seeded, hengine]
    exact hs

/-- A SEED or RESTORE that succeeds leaves the block seeded. -/
theorem exec_load_seeded {i : Instr} {s t : State} (hi : i = .seed ∨ i = .restore) (h : exec i s = .next t)
    (herr : t.err = 0) : t.seeded = true := by
  obtain ⟨t', h', heffect⟩ := exec_effect i s
  obtain rfl : t' = t := Host.Outcome.next.inj (h'.symm.trans h)
  rcases heffect with ⟨e, rfl⟩ | ⟨hr, -⟩ | ⟨hnop, -⟩ | ⟨-, hexp, rfl⟩ | ⟨hcapture, -⟩ | ⟨-, hv, rfl⟩ | ⟨hd, -⟩
  · exact absurd herr e.code_ne_zero
  · rcases hi with rfl | rfl <;> cases hr
  · rcases hi with rfl | rfl <;> cases hnop
  · exact hexp
  · rcases hi with rfl | rfl <;> cases hcapture
  · exact Image.unpack_seeded hv
  · rcases hi with rfl | rfl <;> cases hd

/-! ### Images (R230, R231, R233) -/

theorem or_reverse_five {w : Nat} (a b c d e : BitVec w) : a ||| b ||| c ||| d ||| e = e ||| d ||| c ||| b ||| a := by
  ac_rfl

/-- `SNAP7` as its fields, high to low, with the reserved bits 0 between them (R45). -/
theorem pack_snap7 (e : Engine) :
    ((pack e).snap7 : BitVec (32 + 7 + 1 + 5 + 3 + 4 + 4 + 1 + 7)) = e.p32Value ++ (0 : BitVec 7) ++ e.p32Valid
      ++ (0 : BitVec 5) ++ e.wordRem ++ (0 : BitVec 4) ++ e.byteRem ++ (0 : BitVec 1) ++ e.boolRem := by
  rw [← BitVec.setWidth_eq (e.p32Value ++ _ ++ _ ++ _ ++ _ ++ _ ++ _ ++ _ ++ _)]
  simp only [BitVec.setWidth_append_eq_shiftLeft_setWidth_or, BitVec.shiftLeft_or_distrib, ← BitVec.shiftLeft_add,
    BitVec.ofNat_eq_ofNat, BitVec.setWidth_zero, BitVec.or_zero]
  exact or_reverse_five _ _ _ _ _

theorem Engine.pending32_eq_ite (e : Engine) : e.pending32 = if e.p32Valid = 1#1 then some e.p32Value else none := by
  cases h : e.pending32 <;> simp [Engine.p32Valid, Engine.p32Value, bit, h]

/-- Restoring a captured image gives back the EngineState. -/
theorem unpack_pack (e : Engine) : (pack e).unpack = e := by
  simp (disch := decide) only [Image.unpack, pack_snap7, BitVec.extractLsb'_append_eq_of_le,
    BitVec.extractLsb'_append_eq_of_add_le]
  simp [pack, ← e.pending32_eq_ite]

theorem pack_valid {e : Engine} (hs : e.seeded = true) (hc : countersOk e) : (pack e).valid = true := by
  obtain ⟨hbool, hbyte, hword⟩ := hc
  have hwords : ((pack e).snap0 ||| (pack e).snap1 ||| (pack e).snap2 ||| (pack e).snap3 != 0) = true := hs
  simp (disch := decide) only [Image.valid, hwords, pack_snap7, BitVec.extractLsb'_append_eq_of_le,
    BitVec.extractLsb'_append_eq_of_add_le]
  simp [hbool, hbyte, hword]

theorem exec_capture_of_seeded {s : State} (hs : s.seeded = true) :
    exec .capture s = .next ({ s with snap := pack s.engine } : State).succeed := if_pos hs

theorem exec_restore_of_valid {s : State} (hv : s.snap.valid = true) :
    exec .restore s = .next ({ s with engine := s.snap.unpack } : State).succeed := if_pos hv

/-! ### A command's answer depends on the EngineState and its own operands only (R236) -/

/-- What a host learns of command i is the same from t and t', and so is all that later commands depend on. -/
def answersAlike (i : Instr) (t t' : State) : Prop :=
  t.engine = t'.engine ∧ t.busy = t'.busy
    ∧ (t.busy = false → t.err = t'.err ∧ (isDraw i = true → t.err = 0 → t.result = t'.result))

section Alike

variable {s s' : State} (hengine : s.engine = s'.engine)
include hengine

theorem raise_alike (i : Instr) (e : ErrorKind) : answersAlike i (s.raise e) (s'.raise e) :=
  ⟨hengine, rfl, fun _ => ⟨rfl, fun _ h => absurd h e.code_ne_zero⟩⟩

theorem hang_alike (i : Instr) : answersAlike i s.hang s'.hang :=
  ⟨hengine, rfl, fun h => by cases h⟩

theorem succeed_alike {i : Instr} (hi : isDraw i = false) : answersAlike i s.succeed s'.succeed :=
  ⟨hengine, rfl, fun _ => ⟨rfl, fun h => by rw [hi] at h; cases h⟩⟩

omit hengine in
theorem drew_alike (i : Instr) (engine : Engine) (steps : Nat) (result : Word) :
    answersAlike i (s.drew engine steps result) (s'.drew engine steps result) :=
  ⟨rfl, rfl, fun _ => ⟨rfl, fun _ _ => rfl⟩⟩

theorem nextDraw_alike {w : Nat} (raw : Engine → Draw w) (sgn : Bool) (i : Instr) :
    ∃ t t', nextDraw raw sgn s = .next t ∧ nextDraw raw sgn s' = .next t' ∧ answersAlike i t t' := by
  have hseeded : s.seeded = s'.seeded := congrArg Engine.seeded hengine
  unfold nextDraw
  rw [hseeded, hengine]
  cases s'.seeded
  · exact ⟨_, _, rfl, rfl, raise_alike hengine i _⟩
  · exact ⟨_, _, rfl, rfl, drew_alike i _ _ _⟩

theorem rangeDraw_alike (hopa : s.opa = s'.opa) (hopb : s.opb = s'.opb) {w : Nat} (raw : Engine → Draw w) (sgn : Bool)
    (i : Instr) :
    ∃ t t', rangeDraw raw sgn s = .next t ∧ rangeDraw raw sgn s' = .next t' ∧ answersAlike i t t' := by
  have hseeded : s.seeded = s'.seeded := congrArg Engine.seeded hengine
  unfold rangeDraw State.rangeMin State.rangeMax
  rw [hseeded, hengine, hopa, hopb]
  cases s'.seeded
  · exact ⟨_, _, rfl, rfl, raise_alike hengine i _⟩
  · cases bounded raw sgn (readAs sgn (lowBits w s'.opa)) (readAs sgn (lowBits w s'.opb)) s'.engine with
    | value v f steps => exact ⟨_, _, rfl, rfl, drew_alike i f steps _⟩
    | invalidRange => exact ⟨_, _, rfl, rfl, raise_alike hengine i _⟩
    | neverEnds => exact ⟨_, _, rfl, rfl, hang_alike hengine i⟩

end Alike

/-- Two blocks with the same EngineState and the same operands end every command alike. -/
theorem exec_alike (i : Instr) {s s' : State} (hengine : s.engine = s'.engine) (hopa : s.opa = s'.opa)
    (hopb : s.opb = s'.opb) (hsnap : s.snap = s'.snap) :
    ∃ t t', exec i s = .next t ∧ exec i s' = .next t' ∧ answersAlike i t t' := by
  by_cases hi : isDraw i = true
  · obtain ⟨w, raw, sgn, -, he | he⟩ := exec_of_isDraw hi <;> rw [he]
    · exact nextDraw_alike hengine raw sgn i
    · exact rangeDraw_alike hengine hopa hopb raw sgn i
  · cases i with
    | nop => exact ⟨_, _, rfl, rfl, succeed_alike hengine rfl⟩
    | seed =>
      simp only [exec, execSeed, hopa]
      split
      · exact ⟨_, _, rfl, rfl, succeed_alike (by rfl) rfl⟩
      · exact ⟨_, _, rfl, rfl, raise_alike hengine _ _⟩
    | capture =>
      have hseeded : s.seeded = s'.seeded := congrArg Engine.seeded hengine
      simp only [exec, execCapture, hseeded]
      split
      · exact ⟨_, _, rfl, rfl, succeed_alike hengine rfl⟩
      · exact ⟨_, _, rfl, rfl, raise_alike hengine _ _⟩
    | restore =>
      simp only [exec, execRestore, hsnap]
      split
      · exact ⟨_, _, rfl, rfl, succeed_alike (by rfl) rfl⟩
      · exact ⟨_, _, rfl, rfl, raise_alike hengine _ _⟩
    | _ => exact absurd rfl hi

/-- Two blocks with the same EngineState answer every sequence of calls alike. -/
theorem answers_congr (calls : List Call) {s s' : State} (hengine : s.engine = s'.engine) :
    answers calls s = answers calls s' := by
  induction calls generalizing s s' with
  | nil => rfl
  | cons c rest ih =>
    obtain ⟨t, t', ht, ht', hengine', hbusy, hidle⟩ :=
      exec_alike c.instr (s := s.due c) (s' := s'.due c) hengine rfl rfl rfl
    simp only [answers, ht, ht', ← hbusy]
    cases htb : t.busy with
    | true => rfl
    | false =>
      obtain ⟨herr, hresult⟩ := hidle htb
      have hvalue : (if isDraw c.instr = true ∧ t.err = 0 then some t.result else none)
          = if isDraw c.instr = true ∧ t.err = 0 then some t'.result else none :=
        ite_congr rfl (fun ⟨hdraw, hok⟩ => congrArg some (hresult hdraw hok)) fun _ => rfl
      rw [← herr, hvalue, ih hengine']

/-! ### The obligations -/

/-- Settles O51: the image of CAPTURE is valid and RESTORE loads the captured EngineState from it, and nothing else
decides a later answer. -/
theorem replayFromSnapshot : Obligations.ReplayFromSnapshot := by
  intro s t other u calls hcounters hseeded hcapture hrestore
  obtain rfl := Host.Outcome.next.inj (hcapture.symm.trans (exec_capture_of_seeded hseeded))
  have hvalid : (pack s.engine).valid = true := pack_valid hseeded hcounters
  obtain rfl := Host.Outcome.next.inj (hrestore.symm.trans (exec_restore_of_valid hvalid))
  apply answers_congr calls
  simp only [State.succeed_engine, State.succeed_snap, unpack_pack]

/-- Settles O57: no engine step, draw or access of the host reaches the all-zero permutation state. -/
theorem seededUntilReset : Obligations.SeededUntilReset := by
  refine ⟨fun s => ?_, rfl, fun s t h herr => ?_, fun s t hs hreset h => step_keeps_seeded hs hreset h⟩
  · rw [State.status_seeded, State.seeded, Engine.seeded, bne_iff_ne]
  · rcases h with h | h
    · exact exec_load_seeded (.inl rfl) h herr
    · exact exec_load_seeded (.inr rfl) h herr

/-- Settles O19: a host event does the same behind any EngineState with the same `SEEDED`, and a reset sets both to one. -/
theorem engineIsHiddenFromAccesses : Obligations.EngineIsHiddenFromAccesses := by
  intro s f hdue hf
  have hstep : step { s with engine := f } = hostTurn (s.withEngine f) := step_of_not_due hdue
  rw [step_of_not_due hdue, hstep]
  rcases hostTurn_hiddenAlike hf with ⟨r, h, h'⟩ | ⟨t, g, h, h'⟩ <;> rw [h, h']
  exact ⟨rfl, rfl⟩

/-- Settles O17, by the event the step takes. -/
theorem overrunFlag : Obligations.OverrunFlag := by
  intro s t h
  by_cases hdue : s.phase = .running 0
  · rw [if_pos hdue, step_due_ovr hdue h]
  · rw [if_neg hdue]
    rw [step_of_not_due hdue] at h
    rcases hostTurn_next h with ⟨hh, rfl⟩ | ⟨agent, r, v, rest, hh, -, rfl⟩ | ⟨agent, r, rest, hh, -, rfl⟩
      | ⟨agent, rest, hh, -, rfl⟩ | ⟨rest, hh, rfl⟩ <;> rw [hh]
    · rw [State.passEvent_ovr]
    · have haddr : r.addr = Reg.status.addr ↔ r = .status := ⟨Reg.addr_inj, congrArg Reg.addr⟩
      rw [State.hostWrite_ovr, State.passEvent_ovr, (State.passEvent_eq _).2]
      simp only [haddr]
      rfl
    · rw [State.hostRead_ovr, State.passEvent_ovr]
    · rw [State.hostRead_ovr, State.passEvent_ovr]
    · exact iff_of_false Bool.false_ne_true id

/-- Settles O8, field by field; a write of `STATUS` is what R36 says by definition. -/
theorem statusFields : Obligations.StatusFields := fun s =>
  ⟨s.status_busy, s.status_seeded, s.status_reserved3_2, s.status_err, s.status_ovr, s.status_reserved63_9,
    fun _ => rfl⟩

/-- Settles O9: the slot at a multiple of 8 is the one whose number is an eighth of it. -/
theorem windowMap : Obligations.WindowMap := by
  refine ⟨rfl, Nat.mul_mod_right 128 Config.windowIndex, accessTarget_addr, fun off hlt haligned => ?_⟩
  refine ⟨regOfSlot (off / 8), ?_⟩
  rw [regOfSlot_offset_eq _ (by omega)]
  omega

/-- Settles O6: a due step is `runCommand`, which decodes `CMD`. -/
theorem stepRunsDecodedCommand : Obligations.StepRunsDecodedCommand := by
  intro s i hdue hdecode
  rw [step_of_due hdue, runCommand, hdecode]

/-- Settles O20, a fixed state's values. -/
theorem resetValues : Obligations.ResetValues := by
  unfold Obligations.ResetValues
  decide

end Sys2Proof.Machine

/-! PROOFS. The register window as memory: byte lanes, the accesses that are refused, and what a write and a read do while
the block is idle (20_memory.md). -/

namespace Sys2Proof.Machine

/-! ### Byte lanes (R83) -/

theorem State.readLane_toNat (s : State) (r : Reg) (k : Nat) :
    (s.readLane r k).toNat = (s.readReg r).toNat / 2 ^ (8 * k) % 256 := by
  rw [State.readLane, BitVec.extractLsb'_toNat, Nat.shiftRight_eq_div_pow]

theorem lanes_length (v : Word) : (lanes v).length = 8 := by
  rw [lanes, List.length_map, List.length_range]

theorem lanes_getElem? (v : Word) {k : Nat} (hk : k < 8) : (lanes v)[k]? = some (v.extractLsb' (8 * k) 8) := by
  rw [lanes, List.getElem?_map, List.getElem?_range hk]
  rfl

/-- Eight lanes one above the other are one field of 64 bits, the whole word. -/
theorem ofLanes_lanes (v : Word) : ofLanes (lanes v) = some v := by
  change some (v.extractLsb' 56 8 ++ v.extractLsb' 48 8 ++ v.extractLsb' 40 8 ++ v.extractLsb' 32 8
    ++ v.extractLsb' 24 8 ++ v.extractLsb' 16 8 ++ v.extractLsb' 8 8 ++ v.extractLsb' 0 8) = some v
  simp (disch := decide) only [BitVec.extractLsb'_append_extractLsb'_eq_extractLsb']
  exact congrArg some BitVec.extractLsb'_eq_self

/-! ### A step that takes an access (R82) -/

section Access

variable {s : State} {rest : List HostEvent} {agent addr size : Nat} {r : Reg} {v : Word}

theorem step_of_write (hdue : s.phase ≠ .running 0) (hhost : s.host = .write agent addr size v :: rest) :
    step s = hostAccess { s with host := rest } agent addr size fun t r => t.hostWrite v r := by
  rw [step_of_not_due hdue, hostTurn, hhost]

theorem step_of_read (hdue : s.phase ≠ .running 0) (hhost : s.host = .read agent addr size :: rest) :
    step s = hostAccess { s with host := rest } agent addr size fun t r => t.hostRead r := by
  rw [step_of_not_due hdue, hostTurn, hhost]

/-- The block when it has taken an access of `agent` from the list, with `rest` still to come, before the effect. -/
def State.takeAccess (s : State) (agent : Nat) (rest : List HostEvent) : State :=
  { s with host := rest, owner := some agent }

/-- No slot shows the host's side of the window. -/
theorem State.takeAccess_readReg : (s.takeAccess agent rest).readReg r = s.readReg r := by
  cases r <;> rfl

theorem step_of_slot_write (hdue : s.phase ≠ .running 0) (hhost : s.host = .write agent r.addr 8 v :: rest)
    (howner : s.owner = none ∨ s.owner = some agent) :
    step s = .next ((s.takeAccess agent rest).passEvent.hostWrite v r) :=
  (step_of_write hdue hhost).trans (hostAccess_ok (s := { s with host := rest }) r _ howner)

theorem step_of_slot_read (hdue : s.phase ≠ .running 0) (hhost : s.host = .read agent r.addr 8 :: rest)
    (howner : s.owner = none ∨ s.owner = some agent) :
    step s = .next ((s.takeAccess agent rest).passEvent.hostRead r) :=
  (step_of_read hdue hhost).trans (hostAccess_ok (s := { s with host := rest }) r _ howner)

/-! ### The accesses that are refused (R85) -/

theorem div_ne_windowIndex_iff :
    addr / 128 ≠ Config.windowIndex ↔ addr < Config.base ∨ Config.base + 128 ≤ addr := by
  unfold Config.base
  omega

/-- The first failing check of R85 names the refusal; an access that passes all three has its effect. -/
theorem hostAccess_outcome (howner : s.owner = none ∨ s.owner = some agent) (effect : State → Reg → State) :
    if addr < Config.base ∨ Config.base + 128 ≤ addr then
      hostAccess s agent addr size effect = .refused .outsideWindow
    else if size ≠ 8 then hostAccess s agent addr size effect = .refused .accessWidth
    else if addr % 8 ≠ 0 then hostAccess s agent addr size effect = .refused .misaligned
    else ∃ t, hostAccess s agent addr size effect = .next t := by
  simp only [hostAccess, State.claim_ok howner, accessTarget, div_ne_windowIndex_iff]
  split_ifs
  · rfl
  · rfl
  · rfl
  · exact ⟨_, rfl⟩

/-! ### Accesses while idle (R86) -/

theorem State.busy_of_idle (hidle : s.phase = .idle) : s.busy = false := by
  rw [State.busy, hidle]
  rfl

theorem State.hostWrite_of_idle (hidle : s.phase = .idle) : s.hostWrite v r = s.writeReg v r := by
  rw [State.hostWrite, State.busy_of_idle hidle]
  rfl

theorem State.hostRead_of_idle (hidle : s.phase = .idle) :
    s.hostRead r = { s with lastRead := some (s.readReg r) } := by
  rw [State.hostRead, State.busy_of_idle hidle]
  rfl

/-- R36: bit 8 of a value written to `STATUS` clears `OVR`. -/
theorem State.writeStatus_eq (s : State) (v : Word) :
    s.writeStatus v = { s with ovr := if v.getLsbD 8 then false else s.ovr } := by
  rw [State.writeStatus]
  cases v.getLsbD 8 <;> simp

theorem step_of_idle_write (hidle : s.phase = .idle) (hhost : s.host = .write agent r.addr 8 v :: rest)
    (howner : s.owner = none ∨ s.owner = some agent) :
    step s = .next ((s.takeAccess agent rest).writeReg v r) := by
  have hdue : s.phase ≠ .running 0 := by simp [hidle]
  have hidle' : (s.takeAccess agent rest).phase = .idle := hidle
  rw [step_of_slot_write hdue hhost howner, State.passEvent_idle hidle', State.hostWrite_of_idle hidle']

theorem step_of_idle_read (hidle : s.phase = .idle) (hhost : s.host = .read agent r.addr 8 :: rest)
    (howner : s.owner = none ∨ s.owner = some agent) :
    step s = .next { s.takeAccess agent rest with lastRead := some (s.readReg r) } := by
  have hdue : s.phase ≠ .running 0 := by simp [hidle]
  have hidle' : (s.takeAccess agent rest).phase = .idle := hidle
  rw [step_of_slot_read hdue hhost howner, State.passEvent_idle hidle', State.hostRead_of_idle hidle',
    State.takeAccess_readReg]

end Access

/-! ### The obligations on accesses -/

/-- Settles O5: a lane is a field of the register read, and eight adjacent fields join to the whole word. -/
theorem byteLanesAreLittleEndian : Obligations.ByteLanesAreLittleEndian :=
  ⟨fun s r k _ => s.readLane_toNat r k,
    fun v => ⟨lanes_length v, fun _ hk => lanes_getElem? v hk, ofLanes_lanes v⟩⟩

/-- Settles O10: a write and a read pass the same checks, in the order of `accessTarget`. -/
theorem undefinedAccessIsRefused : Obligations.UndefinedAccessIsRefused := by
  intro s rest agent addr size v hdue hhost howner
  rcases hhost with hwrite | hread
  · rw [step_of_write hdue hwrite]
    exact hostAccess_outcome (s := { s with host := rest }) howner _
  · rw [step_of_read hdue hread]
    exact hostAccess_outcome (s := { s with host := rest }) howner _

/-- Settles O12: a write while idle is `writeReg`, which is the statement slot by slot. -/
theorem writesWhileIdle : Obligations.WritesWhileIdle := by
  intro s rest agent r v hidle hhost howner
  rw [step_of_idle_write hidle hhost howner]
  cases r with
  | status => exact congrArg Host.Outcome.next (State.writeStatus_eq _ v)
  | _ => rfl

/-- Settles O13: a read while idle is `readReg`, slot by slot. -/
theorem readsWhileIdle : Obligations.ReadsWhileIdle := by
  intro s rest agent r hidle hhost howner
  rw [step_of_idle_read hidle hhost howner]
  cases r <;> rfl

end Sys2Proof.Machine

/-! PROOFS. The decoder and the encoder, the illegal values, a poll of `WAIT`, operands and results, and what the
signedness of a command changes (30_encoding.md). -/

namespace Sys2Proof

variable {f : Fields} {v : Word} {i : Instr} {e : FormatError}

/-! ### A command word and its fields (R101) -/

theorem Fields.toWord_ofWord (v : Word) : (Fields.ofWord v).toWord = v := by
  change v.extractLsb' 8 56 ++ v.extractLsb' 7 1 ++ v.extractLsb' 4 3 ++ v.extractLsb' 0 4 = v
  simp (disch := decide) only [BitVec.extractLsb'_append_extractLsb'_eq_extractLsb']
  exact BitVec.extractLsb'_eq_self

theorem Fields.toWord_inj {g : Fields} (h : f.toWord = g.toWord) : f = g := by
  obtain ⟨h, hop⟩ := Machine.append_parts h
  obtain ⟨h, hwid⟩ := Machine.append_parts h
  obtain ⟨hrsv, hsgn⟩ := Machine.append_parts h
  cases f
  cases g
  simp_all

@[simp] theorem Fields.ofWord_toWord (f : Fields) : Fields.ofWord f.toWord = f :=
  Fields.toWord_inj (Fields.toWord_ofWord f.toWord)

/-! ### What an answer of the decoder says about the fields (R106, R107) -/

/-- The fields are in the case of R107 that `e` names. -/
def FormatError.appliesTo (f : Fields) : FormatError → Bool
  | .reservedBits => f.rsv != 0
  | .reservedOp => 6 ≤ f.op.toNat
  | .reservedWidth => (f.op == 2 || f.op == 3) && 5 ≤ f.wid.toNat
  | .signedBoolean => f.op == 2 && f.wid == 0 && f.sgn == 1
  | .booleanRange => f.op == 3 && f.wid == 0
  | .fieldsNotZero => (f.op == 0 || f.op == 1 || f.op == 4 || f.op == 5) && (f.wid != 0 || f.sgn != 0)

theorem FormatError.exists_iff {p : FormatError → Prop} :
    (∃ e, p e) ↔ p .reservedBits ∨ p .reservedOp ∨ p .reservedWidth ∨ p .signedBoolean ∨ p .booleanRange
      ∨ p .fieldsNotZero := by
  constructor
  · rintro ⟨e, he⟩
    cases e <;> simp [he]
  · rintro (h | h | h | h | h | h) <;> exact ⟨_, h⟩

/-- The list of R107. -/
theorem FormatError.exists_appliesTo_iff (f : Fields) :
    (∃ e : FormatError, e.appliesTo f = true) ↔
      f.rsv ≠ 0
        ∨ 6 ≤ f.op.toNat
        ∨ ((f.op = 2 ∨ f.op = 3) ∧ 5 ≤ f.wid.toNat)
        ∨ (f.op = 2 ∧ f.wid = 0 ∧ f.sgn = 1)
        ∨ (f.op = 3 ∧ f.wid = 0)
        ∨ ((f.op = 0 ∨ f.op = 1 ∨ f.op = 4 ∨ f.op = 5) ∧ (f.wid ≠ 0 ∨ f.sgn ≠ 0)) := by
  simp only [FormatError.exists_iff, FormatError.appliesTo, Bool.and_eq_true, Bool.or_eq_true, beq_iff_eq, bne_iff_ne,
    decide_eq_true_eq, and_assoc, or_assoc]

/-- The decoder's answer is right about the fields: a command has just these fields, a reason applies to them. -/
def Fields.justify (f : Fields) : Except FormatError Instr → Bool
  | .ok i => i.fields == f
  | .error e => e.appliesTo f

theorem decodePlain_justified {op : BitVec 4} (hop : op ∈ [0, 1, 4, 5]) (hi : i.fields = ⟨op, 0, 0, 0⟩)
    (wid : BitVec 3) (sgn : BitVec 1) : Fields.justify ⟨op, wid, sgn, 0⟩ (decodePlain i wid sgn) = true := by
  unfold decodePlain
  split
  case isTrue hzero => simp [Fields.justify, hi, hzero]
  case isFalse hzero =>
    have hfields : wid ≠ 0 ∨ sgn ≠ 0 := not_and_or.mp hzero
    simpa [Fields.justify, FormatError.appliesTo, or_assoc] using And.intro hop hfields

theorem decodeNext_justified :
    ∀ wid sgn, Fields.justify ⟨2, wid, sgn, 0⟩ (decodeNext wid sgn) = true := by decide

theorem decodeRange_justified :
    ∀ wid sgn, Fields.justify ⟨3, wid, sgn, 0⟩ (decodeRange wid sgn) = true := by decide

theorem decodeFields_of_reservedOp (hop : 6 ≤ f.op.toNat) : decodeFields f = .error .reservedOp := by
  unfold decodeFields
  split
  case h_7 => rfl
  all_goals omega

theorem decodeFields_justified (hrsv : f.rsv = 0) : f.justify (decodeFields f) = true := by
  obtain ⟨op, wid, sgn, rsv⟩ := f
  obtain rfl : rsv = 0 := hrsv
  have hop : op = 0 ∨ op = 1 ∨ op = 2 ∨ op = 3 ∨ op = 4 ∨ op = 5 ∨ 6 ≤ op.toNat := by bv_omega
  rcases hop with rfl | rfl | rfl | rfl | rfl | rfl | hop
  · exact decodePlain_justified (by decide) rfl wid sgn
  · exact decodePlain_justified (by decide) rfl wid sgn
  · exact decodeNext_justified wid sgn
  · exact decodeRange_justified wid sgn
  · exact decodePlain_justified (by decide) rfl wid sgn
  · exact decodePlain_justified (by decide) rfl wid sgn
  · rw [decodeFields_of_reservedOp hop]
    exact decide_eq_true hop

theorem decode_justified (v : Word) : (Fields.ofWord v).justify (decode v) = true := by
  simp only [decode]
  split
  case isTrue hrsv => exact bne_iff_ne.mpr hrsv
  case isFalse hrsv => exact decodeFields_justified (not_not.mp hrsv)

theorem FormatError.not_appliesTo_of_wf (h : f.wf = true) : e.appliesTo f = false := by
  simp only [Fields.wf, Bool.and_eq_true, and_assoc] at h
  obtain ⟨hrsv, hop, hwidth, hboolean, hplain⟩ := h
  cases e with
  | reservedBits => exact bne_eq_false_iff_eq.mpr (eq_of_beq hrsv)
  | reservedOp => grind [FormatError.appliesTo, Fields.opNamed]
  | reservedWidth => grind [FormatError.appliesTo, Fields.widthNamed, Fields.isDraw]
  | signedBoolean => grind [FormatError.appliesTo, Fields.booleanOk, Fields.isDraw]
  | booleanRange => grind [FormatError.appliesTo, Fields.booleanOk, Fields.isDraw]
  | fieldsNotZero => grind [FormatError.appliesTo, Fields.plainZero, Fields.isDraw]

theorem decodeFields_fields (i : Instr) : decodeFields i.fields = .ok i := by cases i <;> rfl

theorem Instr.fields_rsv (i : Instr) : i.fields.rsv = 0 := by cases i <;> rfl

theorem Instr.fields_wf (i : Instr) : i.fields.wf = true := by cases i <;> rfl

theorem decode_encode (i : Instr) : decode (encode i) = .ok i := by
  simp [decode, encode, Instr.fields_rsv, decodeFields_fields]

theorem decode_eq_ok_iff : decode v = .ok i ↔ v = encode i := by
  constructor
  · intro h
    have hfields : i.fields = Fields.ofWord v := by simpa [h, Fields.justify] using decode_justified v
    rw [encode, hfields, Fields.toWord_ofWord]
  · rintro rfl
    exact decode_encode i

theorem exists_appliesTo_iff_not_decodes :
    (∃ e : FormatError, e.appliesTo (Fields.ofWord v) = true) ↔ ¬∃ i, decode v = .ok i := by
  constructor
  · rintro ⟨e, he⟩ ⟨i, hi⟩
    rw [decode_eq_ok_iff.mp hi, encode, Fields.ofWord_toWord, FormatError.not_appliesTo_of_wf i.fields_wf] at he
    cases he
  · intro hnone
    cases h : decode v with
    | ok i => exact absurd ⟨i, h⟩ hnone
    | error e => exact ⟨e, by simpa [h, Fields.justify] using decode_justified v⟩

end Sys2Proof

namespace Sys2Proof.Machine

/-! ### Values of `CMD` (R105-R107) -/

/-- Settles O2: the fields of a value tell which command it is, and a value is told by its fields. -/
theorem decodeInvertsEncode : Obligations.DecodeInvertsEncode := fun _ _ => decode_eq_ok_iff

/-- Settles O1: each row of the table is a command with its `encode`. -/
theorem legalCommandsAreTheTable : Obligations.LegalCommandsAreTheTable := by
  intro v i
  rw [decode_eq_ok_iff]
  constructor
  · rintro rfl
    cases i <;> decide
  · intro hrow
    exact (by decide : ∀ row ∈ _, row.1 = encode row.2) (v, i) hrow

theorem step_of_due_illegal {s : State} (hdue : s.phase = .running 0) (hillegal : ¬∃ i, decode s.cmd = .ok i) :
    step s = .next (s.raise .illegalCommand) := by
  rw [step_of_due hdue, runCommand]
  split
  case h_1 i h => exact absurd ⟨i, h⟩ hillegal
  case h_2 => rfl

/-- Settles O3: the cases R107 lists are the reasons of the decoder, one for one. -/
theorem illegalValuesSetErrFive : Obligations.IllegalValuesSetErrFive := by
  intro v op wid sgn listed
  have hlisted : listed ↔ ¬∃ i, decode v = .ok i :=
    (FormatError.exists_appliesTo_iff (Fields.ofWord v)).symm.trans exists_appliesTo_iff_not_decodes
  refine ⟨hlisted, fun s h hcmd hdue => step_of_due_illegal hdue ?_⟩
  rw [hcmd]
  exact hlisted.mp h

/-! ### A poll of `WAIT` (R113) -/

section Wait

variable {s : State} {rest : List HostEvent} {agent : Nat}

/-- A read of `STATUS` returns it, in any phase. -/
theorem State.hostRead_status (s : State) : s.hostRead .status = { s with lastRead := some s.status } := by
  simp [State.hostRead, Reg.freeWhileBusy, State.readReg]

theorem State.passEvent_status (s : State) : s.passEvent.status = s.status := by
  obtain ⟨hframe, hbusy⟩ := s.passEvent_eq
  rw [State.status, hbusy, hframe]
  rfl

theorem State.takeAccess_phase : (s.takeAccess agent rest).phase = s.phase := rfl

/-- One poll is a read of `STATUS`; while busy the `WAIT` stays in the list. -/
theorem step_of_wait (hdue : s.phase ≠ .running 0) (hhost : s.host = .wait agent :: rest)
    (howner : s.owner = none ∨ s.owner = some agent) :
    step s = .next ((s.takeAccess agent (if s.busy then s.host else rest)).passEvent.hostRead .status) := by
  have hturn : step s = hostAccess { s with host := if s.busy then s.host else rest } agent Reg.status.addr 8
      fun t r => t.hostRead r := by
    rw [step_of_not_due hdue, hostTurn, hhost]
  exact hturn.trans (hostAccess_ok .status _ howner)

end Wait

/-- Settles O16, by the phase: `BUSY` decides whether the `WAIT` stays, and an event passes as with every access. -/
theorem waitPollsStatus : Obligations.WaitPollsStatus := by
  intro s rest agent hhost howner
  refine ⟨fun hidle => ?_, fun n hrunning => ?_, fun hhung => ?_⟩
  · have hdue : s.phase ≠ .running 0 := by simp [hidle]
    rw [step_of_wait hdue hhost howner, State.hostRead_status, State.passEvent_status,
      State.passEvent_idle (State.takeAccess_phase.trans hidle), State.busy_of_idle hidle]
    rfl
  · have hdue : s.phase ≠ .running 0 := by simp [hrunning]
    have hbusy : s.busy = true := congrArg Phase.busy hrunning
    rw [step_of_wait hdue hhost howner, State.hostRead_status, State.passEvent_status,
      State.passEvent_running (State.takeAccess_phase.trans hrunning), hbusy]
    rfl
  · have hdue : s.phase ≠ .running 0 := by simp [hhung]
    have hbusy : s.busy = true := congrArg Phase.busy hhung
    rw [step_of_wait hdue hhost howner, State.hostRead_status, State.passEvent_status,
      State.passEvent_hung (State.takeAccess_phase.trans hhung), hbusy]
    rfl

/-! ### Operands and results (R109, R110) -/

@[simp] theorem lowBits_toNat (w : Nat) (v : Word) : (lowBits w v).toNat = v.toNat % 2 ^ w := by
  simp [lowBits]

theorem lowBits_msb {w : Nat} (hw : 0 < w) (v : Word) : (lowBits w v).msb = v.getLsbD (w - 1) := by
  simp [lowBits, BitVec.msb_eq_getLsbD_last, hw]

theorem readAs_false_lowBits (w : Nat) (v : Word) : readAs false (lowBits w v) = ((v.toNat % 2 ^ w : Nat) : Int) := by
  rw [← lowBits_toNat]
  rfl

theorem readAs_true_lowBits {w : Nat} (hw : 0 < w) (v : Word) :
    readAs true (lowBits w v) = if v.getLsbD (w - 1) then ((v.toNat % 2 ^ w : Nat) : Int) - 2 ^ w
      else ((v.toNat % 2 ^ w : Nat) : Int) := by
  rw [← lowBits_msb hw, ← lowBits_toNat]
  exact_mod_cast BitVec.toInt_eq_msb_cond (lowBits w v)

/-- Settles O36: the low W bits keep their value mod 2^W and their top bit, and an extension keeps the value. -/
theorem operandsAndResults : Obligations.OperandsAndResults :=
  ⟨fun s w hw _ => ⟨readAs_false_lowBits w s.opa, readAs_false_lowBits w s.opb, readAs_true_lowBits hw s.opa,
      readAs_true_lowBits hw s.opb⟩,
    fun _ _ hw => ⟨BitVec.toNat_setWidth_of_le hw, BitVec.toInt_signExtend_of_le hw⟩⟩

/-! ### The two readings of one width (R104) -/

/-- Two patterns in the same order in both readings are equally far apart in both. -/
theorem toInt_sub_toInt {w : Nat} {a b : BitVec w} (hunsigned : a.toNat < b.toNat) (hsigned : a.toInt < b.toInt) :
    b.toInt - a.toInt = (b.toNat : Int) - a.toNat := by
  have ha := a.isLt
  have hb := b.isLt
  rw [BitVec.toInt_eq_toNat_cond, BitVec.toInt_eq_toNat_cond] at hsigned ⊢
  generalize 2 ^ w = m at *
  split_ifs at hsigned ⊢ <;> omega

/-- The operands of a RANGE are on path 4 of R171. -/
def onPathFour (w : Nat) (sgn : Bool) (s : State) : Prop :=
  s.rangeMin w sgn < s.rangeMax w sgn
    ∧ ¬(s.rangeMin w sgn = rangeLo w sgn ∧ s.rangeMax w sgn = rangeHi w sgn)

/-- The size of the range of a RANGE. -/
def State.rangeSize (s : State) (w : Nat) (sgn : Bool) : Nat := (s.rangeMax w sgn - s.rangeMin w sgn + 1).toNat

section Signedness

variable {w : Nat} {raw : Engine → Draw w} {sgn : Bool} {s t : State}

theorem nextDraw_signed (h : nextDraw raw false s = .next t) :
    ∃ r, nextDraw raw true s = .next { t with result := r } := by
  rcases nextDraw_cases raw false s with ⟨hs, hnext⟩ | ⟨hs, hnext⟩
  · obtain rfl := Host.Outcome.next.inj (h.symm.trans hnext)
    exact ⟨_, if_pos hs⟩
  · obtain rfl := Host.Outcome.next.inj (h.symm.trans hnext)
    exact ⟨s.result, if_neg (Bool.eq_false_iff.mp hs)⟩

theorem rangeDraw_of_unseeded (hs : s.seeded = false) : rangeDraw raw sgn s = .next (s.raise .notSeeded) := by
  rcases rangeDraw_cases raw sgn s with ⟨-, h⟩ | ⟨h, -⟩ | ⟨h, -⟩ | ⟨h, -⟩
  · exact h
  all_goals simp [hs] at h

theorem rangeDraw_pathFour_hangs (hs : s.seeded = true) (hpath : onPathFour w sgn s)
    (hlemire : lemire raw (s.rangeSize w sgn) s.engine = none) : rangeDraw raw sgn s = .next s.hang := by
  obtain ⟨hlt, hfull⟩ := hpath
  rw [State.rangeSize] at hlemire
  simp only [rangeDraw, hs, bounded, hlt.ne, hfull, hlt.not_gt, hlemire, if_true, if_false]

theorem rangeDraw_pathFour_draws {d : Draw w} (hs : s.seeded = true) (hpath : onPathFour w sgn s)
    (hlemire : lemire raw (s.rangeSize w sgn) s.engine = some d) :
    rangeDraw raw sgn s = .next (s.drew d.engine d.steps
      (widen sgn (BitVec.ofInt w (s.rangeMin w sgn + d.value.toNat)))) := by
  obtain ⟨hlt, hfull⟩ := hpath
  rw [State.rangeSize] at hlemire
  simp only [rangeDraw, hs, bounded, hlt.ne, hfull, hlt.not_gt, hlemire, if_true, if_false]

theorem rangeSize_signed (hunsigned : s.rangeMin w false < s.rangeMax w false)
    (hsigned : s.rangeMin w true < s.rangeMax w true) : s.rangeSize w true = s.rangeSize w false := by
  have hsub : s.rangeMax w true - s.rangeMin w true = s.rangeMax w false - s.rangeMin w false :=
    toInt_sub_toInt (Int.ofNat_lt.mp hunsigned) hsigned
  rw [State.rangeSize, State.rangeSize, hsub]

theorem rangeDraw_signed (hpath : ∀ sgn, onPathFour w sgn s) (h : rangeDraw raw false s = .next t) :
    ∃ r, rangeDraw raw true s = .next { t with result := r } := by
  cases hs : s.seeded with
  | false =>
    obtain rfl := Host.Outcome.next.inj (h.symm.trans (rangeDraw_of_unseeded hs))
    exact ⟨s.result, rangeDraw_of_unseeded hs⟩
  | true =>
    have hsize := rangeSize_signed (hpath false).1 (hpath true).1
    cases hlemire : lemire raw (s.rangeSize w false) s.engine with
    | none =>
      obtain rfl := Host.Outcome.next.inj (h.symm.trans (rangeDraw_pathFour_hangs hs (hpath false) hlemire))
      exact ⟨s.result, rangeDraw_pathFour_hangs hs (hpath true) (hsize ▸ hlemire)⟩
    | some d =>
      obtain rfl := Host.Outcome.next.inj (h.symm.trans (rangeDraw_pathFour_draws hs (hpath false) hlemire))
      exact ⟨_, rangeDraw_pathFour_draws hs (hpath true) (hsize ▸ hlemire)⟩

end Signedness

/-- Settles O47: the signed reading takes the same raw draws, a RANGE on path 4 since its range is the same. -/
theorem signednessChangesOnlyTheReading : Obligations.SignednessChangesOnlyTheReading := by
  unfold Obligations.SignednessChangesOnlyTheReading
  simp only [List.forall_mem_cons]
  exact ⟨⟨fun _ _ => nextDraw_signed, fun _ _ => nextDraw_signed, fun _ _ => nextDraw_signed,
      fun _ _ => nextDraw_signed, List.forall_mem_nil _⟩,
    fun _ _ => rangeDraw_signed, fun _ _ => rangeDraw_signed, fun _ _ => rangeDraw_signed,
    fun _ _ => rangeDraw_signed, List.forall_mem_nil _⟩

end Sys2Proof.Machine

/-! PROOFS. The engine step and its inverse, the seed expander, SEED, NOP, the 64-bit draws, and the engine steps each
command takes (40_engine.md). -/

namespace Sys2Proof.Machine

/-! ### The engine step (R140, R142) -/

theorem xor_xor_cancel_left {w : Nat} (a b : BitVec w) : a ^^^ (a ^^^ b) = b := by
  rw [← BitVec.xor_assoc, BitVec.xor_self, BitVec.zero_xor]

theorem xor_xor_cancel_right {w : Nat} (a b : BitVec w) : a ^^^ b ^^^ b = a := by
  rw [BitVec.xor_assoc, BitVec.xor_self, BitVec.xor_zero]

theorem rotateRight_rotateLeft {w : Nat} (x : BitVec w) (k : Nat) : (x.rotateLeft k).rotateRight k = x := by
  ext i hi
  have hk : k % w < w := Nat.mod_lt k (by omega)
  rw [BitVec.getElem_rotateRight hi]
  split
  · rw [BitVec.getElem_rotateLeft, dif_neg (by omega)]
    congr 1
    omega
  · rw [BitVec.getElem_rotateLeft, dif_pos (by omega)]
    congr 1
    omega

theorem rotateLeft_xor {w : Nat} (x y : BitVec w) (k : Nat) :
    (x ^^^ y).rotateLeft k = x.rotateLeft k ^^^ y.rotateLeft k := by
  ext i hi
  rw [BitVec.getElem_xor, BitVec.getElem_rotateLeft, BitVec.getElem_rotateLeft, BitVec.getElem_rotateLeft]
  split <;> rw [BitVec.getElem_xor]

/-- The four lines of R140, each in terms of the words before the step. -/
theorem Engine.advance_eq (e : Engine) :
    e.advance = { e with
      s0 := e.s0 ^^^ (e.s3 ^^^ e.s1)
      s1 := e.s1 ^^^ (e.s2 ^^^ e.s0)
      s2 := e.s2 ^^^ e.s0 ^^^ e.s1 <<< 17
      s3 := (e.s3 ^^^ e.s1).rotateLeft 45 } := by
  rw [← rotl_eq_rotateLeft _ (by decide)]
  rfl

theorem Engine.output_eq (e : Engine) : e.output = (e.s1 * 5).rotateLeft 7 * 9 := by
  rw [← rotl_eq_rotateLeft _ (by decide)]
  rfl

theorem Engine.advance_seeded_eq (e : Engine) : e.advance.seeded = e.seeded := by
  cases h : e.seeded with
  | true => exact Engine.advance_seeded h
  | false =>
    obtain ⟨h0, h1, h2, h3⟩ := e.seeded_eq_false_iff.mp h
    rw [Engine.seeded_eq_false_iff, Engine.advance_eq, h0, h1, h2, h3]
    exact ⟨rfl, rfl, rfl, rfl⟩

/-- The equation `y = s1 ^ (s1 << 17)` of R142 has the one solution given there: in either substitution all terms but
the first cancel in pairs, and the last is shifted out. -/
theorem eq_xor_shiftLeft_iff (x y : Word) :
    y = x ^^^ x <<< 17 ↔ x = y ^^^ y <<< 17 ^^^ y <<< 34 ^^^ y <<< 51 := by
  have hout (z : Word) : z <<< 68 = 0 := BitVec.shiftLeft_eq_zero (by decide)
  constructor
  · rintro rfl
    simp only [BitVec.shiftLeft_xor_distrib, ← BitVec.shiftLeft_add, Nat.reduceAdd, hout, BitVec.xor_assoc,
      xor_xor_cancel_left, BitVec.ofNat_eq_ofNat, BitVec.xor_zero, BitVec.xor_self]
  · rintro rfl
    have hpairs := xor_xor_cancel_right y (y <<< 17 ^^^ y <<< 34 ^^^ y <<< 51)
    simp only [BitVec.xor_assoc] at hpairs
    simp only [BitVec.shiftLeft_xor_distrib, ← BitVec.shiftLeft_add, Nat.reduceAdd, hout, BitVec.xor_assoc,
      BitVec.ofNat_eq_ofNat, BitVec.xor_zero, hpairs]

/-- The inverse of R142, word by word. -/
theorem Engine.advance_inverse (e : Engine) :
    e.advance.s3.rotateRight 45 = e.s3 ^^^ e.s1 ∧ e.advance.s1 ^^^ e.advance.s2 = e.s1 ^^^ e.s1 <<< 17
      ∧ e.advance.s0 ^^^ (e.s3 ^^^ e.s1) = e.s0 ∧ e.advance.s1 ^^^ e.s1 ^^^ e.s0 = e.s2 := by
  rw [Engine.advance_eq]
  refine ⟨rotateRight_rotateLeft _ 45, ?_, xor_xor_cancel_right _ _, ?_⟩
  · change e.s1 ^^^ (e.s2 ^^^ e.s0) ^^^ (e.s2 ^^^ e.s0 ^^^ e.s1 <<< 17) = _
    rw [BitVec.xor_assoc, xor_xor_cancel_left]
  · change e.s1 ^^^ (e.s2 ^^^ e.s0) ^^^ e.s1 ^^^ e.s0 = _
    rw [BitVec.xor_comm e.s1, xor_xor_cancel_right, xor_xor_cancel_right]

/-- The step is linear over GF(2): every line of R140 is a sum, a shift or a rotation. -/
theorem Engine.advance_xor {e f g : Engine} (h0 : g.s0 = e.s0 ^^^ f.s0) (h1 : g.s1 = e.s1 ^^^ f.s1)
    (h2 : g.s2 = e.s2 ^^^ f.s2) (h3 : g.s3 = e.s3 ^^^ f.s3) :
    g.advance.s0 = e.advance.s0 ^^^ f.advance.s0 ∧ g.advance.s1 = e.advance.s1 ^^^ f.advance.s1
      ∧ g.advance.s2 = e.advance.s2 ^^^ f.advance.s2 ∧ g.advance.s3 = e.advance.s3 ^^^ f.advance.s3 := by
  simp only [Engine.advance_eq, h0, h1, h2, h3, BitVec.shiftLeft_xor_distrib, ← rotateLeft_xor]
  generalize e.s1 <<< 17 = a, f.s1 <<< 17 = b
  refine ⟨by ac_rfl, by ac_rfl, by ac_rfl, congrArg (BitVec.rotateLeft · 45) ?_⟩
  ac_rfl

/-! ### The seed expander (R144, R145) -/

theorem mix64_eq (z : Word) :
    mix64 z =
      let a := (z ^^^ (z >>> 30)) * 0xBF58476D1CE4E5B9
      let b := (a ^^^ (a >>> 27)) * 0x94D049BB133111EB
      b ^^^ (b >>> 31) := by
  simp only [mix64, mixFirst, mixSecond, BitVec.mul_comm]

theorem eq_zero_of_ushiftRight_eq_self {w k : Nat} {x : BitVec w} (hk : 0 < k) (h : x >>> k = x) : x = 0 := by
  have hdiv : x.toNat / 2 ^ k = x.toNat := by
    rw [← Nat.shiftRight_eq_div_pow, ← BitVec.toNat_ushiftRight, h]
  have hpow : 1 < 2 ^ k := Nat.one_lt_two_pow hk.ne'
  by_contra hne
  have hpos : 0 < x.toNat := Nat.pos_of_ne_zero fun h0 => hne (BitVec.eq_of_toNat_eq h0)
  exact (Nat.div_lt_self hpos hpow).ne hdiv

theorem xor_ushiftRight_injective {w k : Nat} (hk : 0 < k) : Function.Injective fun x : BitVec w => x ^^^ x >>> k := by
  intro x y h
  replace h : x ^^^ x >>> k = y ^^^ y >>> k := h
  have hsum : (x ^^^ y) >>> k = x ^^^ y := calc
    (x ^^^ y) >>> k = x >>> k ^^^ y >>> k := BitVec.ushiftRight_xor_distrib x y k
    _ = x ^^^ (x ^^^ x >>> k) ^^^ y >>> k := by rw [xor_xor_cancel_left]
    _ = x ^^^ (y ^^^ y >>> k) ^^^ y >>> k := by rw [h]
    _ = x ^^^ y := by rw [← BitVec.xor_assoc, xor_xor_cancel_right]
  exact BitVec.xor_eq_zero_iff.mp (eq_zero_of_ushiftRight_eq_self hk hsum)

/-- Each round of `Mix64` can be undone: an xor with a shift of itself, a product with an odd constant. -/
theorem mix64_injective : Function.Injective mix64 :=
  (xor_ushiftRight_injective (k := 31) (by decide)).comp <|
    (IsUnit.of_mul_eq_one (a := mixSecond) 0x319642B2D24D8EC3 (by decide)).mul_right_injective.comp <|
      (xor_ushiftRight_injective (k := 27) (by decide)).comp <|
        (IsUnit.of_mul_eq_one (a := mixFirst) 0x96DE1B173F119089 (by decide)).mul_right_injective.comp <|
          xor_ushiftRight_injective (k := 30) (by decide)

theorem seedExpand_eq (seed : Word) :
    seedExpand seed = { Engine.reset with
      s0 := mix64 (seed + 0x9E3779B97F4A7C15)
      s1 := mix64 (seed + 0x9E3779B97F4A7C15 + 0x9E3779B97F4A7C15)
      s2 := mix64 (seed + 0x9E3779B97F4A7C15 + 0x9E3779B97F4A7C15 + 0x9E3779B97F4A7C15)
      s3 := mix64 (seed + 0x9E3779B97F4A7C15 + 0x9E3779B97F4A7C15 + 0x9E3779B97F4A7C15 + 0x9E3779B97F4A7C15) } := by
  simp only [seedExpand, BitVec.add_comm goldenGamma]
  rfl

/-- R147: two accumulators that follow each other differ, so `Mix64` does not take both to 0. -/
theorem seedExpand_seeded (seed : Word) : (seedExpand seed).seeded = true := by
  by_contra h
  obtain ⟨h0, h1, -, -⟩ := (Engine.seeded_eq_false_iff _).mp (Bool.eq_false_iff.mpr h)
  have hacc : goldenGamma + seed = goldenGamma + (goldenGamma + seed) := mix64_injective (h0.trans h1.symm)
  have hgamma : goldenGamma = 0 := by simpa using hacc
  exact absurd hgamma (by decide)

/-! ### SEED, RESTORE, CAPTURE and the drawing commands on each state -/

section Commands

variable {s : State} {w : Nat} {raw : Engine → Draw w} {sgn : Bool}

/-- SEED never raises InvalidSeed (R147). -/
theorem exec_seed (s : State) : exec .seed s = .next ({ s with engine := seedExpand s.opa } : State).succeed :=
  if_pos (seedExpand_seeded s.opa)

theorem exec_capture_of_unseeded (hs : s.seeded = false) : exec .capture s = .next (s.raise .notSeeded) :=
  if_neg (Bool.eq_false_iff.mp hs)

theorem exec_restore_of_invalid (hv : s.snap.valid = false) : exec .restore s = .next (s.raise .invalidState) :=
  if_neg (Bool.eq_false_iff.mp hv)

theorem nextDraw_of_seeded (hs : s.seeded = true) : nextDraw raw sgn s
    = .next (s.drew (raw s.engine).engine (raw s.engine).steps (widen sgn (raw s.engine).value)) := if_pos hs

theorem nextDraw_of_unseeded (hs : s.seeded = false) : nextDraw raw sgn s = .next (s.raise .notSeeded) :=
  if_neg (Bool.eq_false_iff.mp hs)

/-- Every drawing command checks `SEEDED` first (R265). -/
theorem exec_isDraw_of_unseeded {i : Instr} (hi : isDraw i = true) (hs : s.seeded = false) :
    exec i s = .next (s.raise .notSeeded) := by
  obtain ⟨w, raw, sgn, -, he | he⟩ := exec_of_isDraw hi <;> rw [he]
  · exact nextDraw_of_unseeded hs
  · exact rangeDraw_of_unseeded hs

theorem widen_word (sgn : Bool) (v : Word) : widen sgn v = v := by
  cases sgn
  · exact BitVec.setWidth_eq v
  · exact BitVec.signExtend_eq v

/-- A 64-bit NEXT returns the word of one engine step in either reading (R148, R149). -/
theorem nextDraw_raw64_of_seeded (hs : s.seeded = true) : nextDraw Engine.raw64 sgn s = .next { s with
    engine := s.engine.step.engine
    stepCount := s.stepCount + 1
    result := s.engine.step.value
    err := 0
    phase := .idle } := by
  rw [nextDraw_of_seeded hs, widen_word]
  rfl

/-! ### A RANGE over the full range (path 2 of R171) -/

theorem rangeLo_le_rangeHi (w : Nat) (sgn : Bool) : rangeLo w sgn ≤ rangeHi w sgn := by
  have hhalf := Nat.two_pow_pos (w - 1)
  have hall := Nat.two_pow_pos w
  cases sgn <;> simp only [rangeLo, rangeHi, if_true, if_false, Bool.false_eq_true] <;> omega

theorem rangeLo_lt_rangeHi (hw : 0 < w) (sgn : Bool) : rangeLo w sgn < rangeHi w sgn := by
  have hhalf := Nat.two_pow_pos (w - 1)
  have hall : 1 < 2 ^ w := Nat.one_lt_two_pow hw.ne'
  cases sgn <;> simp only [rangeLo, rangeHi, if_true, if_false, Bool.false_eq_true] <;> omega

theorem ofInt_readAs (sgn : Bool) (v : BitVec w) : BitVec.ofInt w (readAs sgn v) = v := by
  cases sgn
  · exact (BitVec.ofInt_natCast w v.toNat).trans (by simp)
  · exact BitVec.ofInt_toInt

theorem rangeDraw_full (hw : 0 < w) (hmin : s.rangeMin w sgn = rangeLo w sgn)
    (hmax : s.rangeMax w sgn = rangeHi w sgn) :
    rangeDraw raw sgn s = nextDraw raw sgn s := by
  have hne : rangeLo w sgn ≠ rangeHi w sgn := (rangeLo_lt_rangeHi hw sgn).ne
  cases hs : s.seeded with
  | false => rw [rangeDraw_of_unseeded hs, nextDraw_of_unseeded hs]
  | true => simp [rangeDraw, nextDraw, hs, bounded, hmin, hmax, hne, ofInt_readAs]

end Commands

/-! ### The first draw that is not redrawn (R173, R300) -/

section Redraw

variable {w range k : Nat} {raw : Engine → Draw w} {e : Engine}

/-- The engine that draws again after k draws is the one reached, so a loop that comes back to an engine goes round. -/
theorem drawAt_eq_of_drawEngine_eq {i j : Nat} (h : drawEngine raw i e = drawEngine raw j e) (m : Nat) :
    drawAt raw (i + m) e = drawAt raw (j + m) e := by
  rw [drawAt, drawAt, drawEngine_add, drawEngine_add, h]

/-- A first draw that is accepted comes before any engine repeats, so within the fuel of the redraw loop. -/
theorem first_accepted_lt_engineCount (hredrawn : ∀ j, j < k → redraws range (drawAt raw j e).value)
    (haccepted : ¬redraws range (drawAt raw k e).value) : k < engineCount := by
  obtain ⟨i, j, hij, hj, hrepeat⟩ := engine_repeats fun n => drawEngine raw n e
  by_contra hk
  have hsame := drawAt_eq_of_drawEngine_eq hrepeat (k - j)
  rw [show j + (k - j) = k by omega] at hsame
  exact haccepted (hsame ▸ hredrawn (i + (k - j)) (by omega))

/-- The redraw loop from the first draw, with c engine steps already counted. -/
theorem redraw_of_first_accepted {fuel : Nat} (c : Nat) (hfuel : k < fuel)
    (hredrawn : ∀ j, j < k → redraws range (drawAt raw j e).value)
    (haccepted : ¬redraws range (drawAt raw k e).value) :
    redraw raw range (threshold w range) fuel ⟨(raw e).value, (raw e).engine, c + (raw e).steps⟩
      = some ⟨(drawAt raw k e).value, drawEngine raw (k + 1) e, c + drawSteps raw (k + 1) e⟩ := by
  induction k generalizing fuel e c with
  | zero =>
    obtain ⟨fuel, rfl⟩ := Nat.exists_eq_succ_of_ne_zero hfuel.ne'
    exact (redraw_succ ..).trans (if_neg haccepted)
  | succ k ih =>
    obtain ⟨fuel, rfl⟩ := Nat.exists_eq_succ_of_ne_zero (Nat.ne_zero_of_lt hfuel)
    refine (redraw_succ ..).trans ((if_pos (hredrawn 0 k.succ_pos)).trans ?_)
    have hrest := ih (e := (raw e).engine) (c + (raw e).steps) (Nat.lt_of_succ_lt_succ hfuel)
      (fun j hj => hredrawn (j + 1) (Nat.succ_lt_succ hj)) haccepted
    rw [Nat.add_assoc c (raw e).steps (drawSteps raw (k + 1) (raw e).engine)] at hrest
    exact hrest

/-- `Lemire_W` ends at the first draw that is not redrawn, whichever draw that is. -/
theorem lemire_of_first_accepted (hrange : 0 < range)
    (hredrawn : ∀ j, j < k → redraws range (drawAt raw j e).value)
    (haccepted : ¬redraws range (drawAt raw k e).value) :
    lemire raw range e = some ⟨BitVec.ofNat w (highPart range (drawAt raw k e).value), drawEngine raw (k + 1) e,
      drawSteps raw (k + 1) e⟩ := by
  simp only [lemire]
  split
  case isTrue =>
    have hloop := redraw_of_first_accepted 0 (first_accepted_lt_engineCount hredrawn haccepted) hredrawn haccepted
    simp only [Nat.zero_add] at hloop
    rw [hloop]
    rfl
  case isFalse hlarge =>
    have hfirst : ¬redraws range (drawAt raw 0 e).value := fun h =>
      hlarge (h.trans (Nat.mod_lt _ hrange))
    obtain rfl : k = 0 := Nat.eq_zero_of_not_pos fun hk => hfirst (hredrawn 0 hk)
    rfl

end Redraw

/-! ### Engine steps and the permutation state (R141, R44) -/

theorem samePermutation.refl (e : Engine) : samePermutation e e := ⟨rfl, rfl, rfl, rfl⟩

theorem samePermutation.trans {e f g : Engine} (h : samePermutation e f) (h' : samePermutation f g) :
    samePermutation e g := by
  obtain ⟨h0, h1, h2, h3⟩ := h
  obtain ⟨h0', h1', h2', h3'⟩ := h'
  exact ⟨h0.trans h0', h1.trans h1', h2.trans h2', h3.trans h3'⟩

/-- The step reads nothing but the permutation state. -/
theorem samePermutation.advance {e f : Engine} (h : samePermutation e f) : samePermutation e.advance f.advance := by
  obtain ⟨h0, h1, h2, h3⟩ := h
  simp only [Engine.advance_eq, samePermutation, h0, h1, h2, h3, and_self]

theorem samePermutation.drawEngine_step {e f : Engine} (h : samePermutation e f) (n : Nat) :
    samePermutation (drawEngine Engine.step n e) (drawEngine Engine.step n f) := by
  induction n generalizing e f with
  | zero => exact h
  | succ n ih => exact ih h.advance

/-- One raw draw takes the permutation state on by the engine steps it counts. -/
theorem IsRawDraw.took {w : Nat} {raw : Engine → Draw w} (h : IsRawDraw raw) (e : Engine) :
    samePermutation (raw e).engine (drawEngine Engine.step (raw e).steps e) := by
  rcases h.permutation e with ⟨hsteps, hsame⟩ | ⟨hsteps, hsame⟩ <;> rw [hsteps] <;> exact hsame

/-- And so do any number of raw draws. -/
theorem IsRawDraw.drawEngine_took {w : Nat} {raw : Engine → Draw w} (h : IsRawDraw raw) (k : Nat) (e : Engine) :
    samePermutation (drawEngine raw k e) (drawEngine Engine.step (drawSteps raw k e) e) := by
  induction k generalizing e with
  | zero => exact samePermutation.refl _
  | succ k ih =>
    rw [drawSteps, drawEngine_add Engine.step]
    exact (ih _).trans ((h.took e).drawEngine_step _)

theorem IsRawDraw.width_pos {w : Nat} {raw : Engine → Draw w} (h : IsRawDraw raw) : 0 < w := by
  cases h <;> decide

theorem tookSteps_zero {s t : State} (hengine : t.engine = s.engine) (hcount : t.stepCount = s.stepCount) :
    tookSteps 0 s t := by
  refine ⟨?_, hcount.trans (BitVec.add_zero _).symm⟩
  rw [hengine]
  exact samePermutation.refl _

theorem tookSteps_drew {w : Nat} {raw : Engine → Draw w} (h : IsRawDraw raw) (k : Nat) (s : State) (result : Word) :
    tookSteps (drawSteps raw k s.engine) s (s.drew (drawEngine raw k s.engine) (drawSteps raw k s.engine) result) :=
  ⟨h.drawEngine_took k s.engine, rfl⟩

section Took

variable {s t : State} {w : Nat} {raw : Engine → Draw w} {sgn : Bool}

theorem nextDraw_took (hraw : IsRawDraw raw) (h : nextDraw raw sgn s = .next t) : nextTook raw s t := by
  unfold nextTook
  rcases nextDraw_cases raw sgn s with ⟨hs, hnext⟩ | ⟨hs, hnext⟩
  · obtain rfl := Host.Outcome.next.inj (h.symm.trans hnext)
    rw [if_pos hs]
    exact ⟨hraw.took s.engine, rfl⟩
  · obtain rfl := Host.Outcome.next.inj (h.symm.trans hnext)
    rw [if_neg (Bool.eq_false_iff.mp hs)]
    exact tookSteps_zero rfl rfl

/-- A RANGE that is unseeded, on path 1 or 3 of R171, or hangs takes no engine step. -/
theorem rangeDraw_took_none (h : rangeDraw raw sgn s = .next t)
    (hnone : s.seeded = false ∨ s.rangeMin w sgn = s.rangeMax w sgn ∨ s.rangeMax w sgn < s.rangeMin w sgn
      ∨ t.phase = .hung) : tookSteps 0 s t := by
  rcases rangeDraw_cases raw sgn s with ⟨-, hr⟩ | ⟨-, -, hr⟩ | ⟨-, -, hr⟩ | ⟨hs, v, f, steps, hb, hr⟩
  all_goals obtain rfl := Host.Outcome.next.inj (h.symm.trans hr)
  · exact tookSteps_zero rfl rfl
  · exact tookSteps_zero rfl rfl
  · exact tookSteps_zero rfl rfl
  · have horder : s.rangeMin w sgn = s.rangeMax w sgn ∨ s.rangeMax w sgn < s.rangeMin w sgn := by
      simpa [hs, State.drew] using hnone
    have hlohi := rangeLo_le_rangeHi w sgn
    rcases bounded_cases raw sgn (s.rangeMin w sgn) (s.rangeMax w sgn) s.engine with
      ⟨-, hv⟩ | ⟨hne, ⟨hmin, hmax⟩, -⟩ | ⟨-, -, -, hv⟩ | ⟨hlt, -⟩ | ⟨hlt, -⟩
    · cases hb.symm.trans hv
      exact tookSteps_zero rfl (BitVec.add_zero _)
    · omega
    · cases hb.symm.trans hv
    · omega
    · omega

theorem rangeDraw_took (hraw : IsRawDraw raw) (h : rangeDraw raw sgn s = .next t) : rangeTook raw sgn s t := by
  refine ⟨rangeDraw_took_none h, fun hs ⟨hmin, hmax⟩ => ?_, fun k hs hlt hfull hredrawn haccepted => ?_⟩
  · rw [rangeDraw_full hraw.width_pos hmin hmax, nextDraw_of_seeded hs] at h
    obtain rfl := Host.Outcome.next.inj h
    exact tookSteps_drew hraw 1 s _
  · have hlemire := lemire_of_first_accepted (by omega) hredrawn haccepted
    obtain rfl := Host.Outcome.next.inj (h.symm.trans (rangeDraw_pathFour_draws hs ⟨hlt, hfull⟩ hlemire))
    exact tookSteps_drew hraw (k + 1) s _

end Took

/-- RESTORE makes no engine step, and fails only without writing (R234). -/
theorem exec_restore_took {s t : State} (h : exec .restore s = .next t) : loadTook s t := by
  cases hv : s.snap.valid with
  | true =>
    obtain rfl := Host.Outcome.next.inj (h.symm.trans (exec_restore_of_valid hv))
    exact ⟨rfl, fun herr => absurd rfl herr⟩
  | false =>
    obtain rfl := Host.Outcome.next.inj (h.symm.trans (exec_restore_of_invalid hv))
    exact ⟨rfl, fun _ => samePermutation.refl _⟩

theorem exec_capture_took {s t : State} (h : exec .capture s = .next t) : tookSteps 0 s t := by
  cases hs : s.seeded with
  | true =>
    obtain rfl := Host.Outcome.next.inj (h.symm.trans (exec_capture_of_seeded hs))
    exact tookSteps_zero rfl rfl
  | false =>
    obtain rfl := Host.Outcome.next.inj (h.symm.trans (exec_capture_of_unseeded hs))
    exact tookSteps_zero rfl rfl

theorem exec_took {i : Instr} {s t : State} (h : exec i s = .next t) : commandTook i s t := by
  cases i with
  | nop =>
    obtain rfl := Host.Outcome.next.inj h
    exact tookSteps_zero rfl rfl
  | seed =>
    obtain rfl := Host.Outcome.next.inj (h.symm.trans (exec_seed s))
    exact ⟨rfl, fun herr => absurd rfl herr⟩
  | capture => exact exec_capture_took h
  | restore => exact exec_restore_took h
  | nextB => exact nextDraw_took .raw1 h
  | nextU8 => exact nextDraw_took .raw8 h
  | nextS8 => exact nextDraw_took .raw8 h
  | nextU16 => exact nextDraw_took .raw16 h
  | nextS16 => exact nextDraw_took .raw16 h
  | nextU32 => exact nextDraw_took .raw32 h
  | nextS32 => exact nextDraw_took .raw32 h
  | nextU64 => exact nextDraw_took .raw64 h
  | nextS64 => exact nextDraw_took .raw64 h
  | rangeU8 => exact rangeDraw_took .raw8 h
  | rangeS8 => exact rangeDraw_took .raw8 h
  | rangeU16 => exact rangeDraw_took .raw16 h
  | rangeS16 => exact rangeDraw_took .raw16 h
  | rangeU32 => exact rangeDraw_took .raw32 h
  | rangeS32 => exact rangeDraw_took .raw32 h
  | rangeU64 => exact rangeDraw_took .raw64 h
  | rangeS64 => exact rangeDraw_took .raw64 h

/-- A host event other than a reset leaves the registers that only commands write. -/
theorem hostTurn_keeps {s t : State} (hreset : ∀ rest, s.host ≠ .reset :: rest) (h : hostTurn s = .next t) :
    t.stepCount = s.stepCount ∧ t.err = s.err ∧ t.result = s.result := by
  rcases hostTurn_next h with ⟨-, rfl⟩ | ⟨_, _, _, _, -, -, rfl⟩ | ⟨_, _, _, -, -, rfl⟩ | ⟨_, _, -, -, rfl⟩ | ⟨rest, hh, -⟩
  · rw [s.passEvent_eq.1]; exact ⟨rfl, rfl, rfl⟩
  · rw [State.hostWrite_frame, (State.passEvent_eq _).1]; exact ⟨rfl, rfl, rfl⟩
  · rw [State.hostRead_frame, (State.passEvent_eq _).1]; exact ⟨rfl, rfl, rfl⟩
  · rw [State.hostRead_frame, (State.passEvent_eq _).1]; exact ⟨rfl, rfl, rfl⟩
  · exact absurd hh (hreset rest)

/-! ### The obligations on the engine -/

/-- Settles O24: a due step by its command, a RANGE by its path of R171; no other step touches the engine. -/
theorem onlyCountedStepsChangeThePermutation : Obligations.OnlyCountedStepsChangeThePermutation := by
  intro s t h hreset
  by_cases hdue : s.phase = .running 0
  · rw [if_pos hdue]
    rcases step_due_effect hdue h with ⟨i, hdecode, hexec, -⟩ | ⟨⟨e, hdecode⟩, rfl⟩ <;> rw [hdecode]
    · exact exec_took hexec
    · exact tookSteps_zero rfl rfl
  · rw [if_neg hdue]
    rw [step_of_not_due hdue] at h
    have hhost : ∀ rest, s.host ≠ .reset :: rest := fun rest hh => hreset ⟨hdue, rest, hh⟩
    obtain ⟨hcount, -, -⟩ := hostTurn_keeps hhost h
    exact tookSteps_zero (hostTurn_engine hhost h) hcount

/-- Settles O25: the step's four lines, inverted and added word by word. -/
theorem engineStepIsInvertible : Obligations.EngineStepIsInvertible := by
  refine ⟨Engine.advance_seeded_eq, fun e => ?_, eq_xor_shiftLeft_iff, fun e f g => Engine.advance_xor⟩
  obtain ⟨hb, hy, hs0, hs2⟩ := e.advance_inverse
  have hs1 := (eq_xor_shiftLeft_iff e.s1 _).mp hy
  simp only [Engine.step_engine, hb, ← hs1, hs0, hs2]
  exact ⟨trivial, hy, trivial, trivial, trivial, (xor_xor_cancel_right e.s3 e.s1).symm⟩

/-- Settles O23: the step with its rotations, and a drawing command that finds the block unseeded. -/
theorem engineStepUpdate : Obligations.EngineStepUpdate :=
  ⟨fun e => ⟨e.output_eq, e.advance_eq, rfl⟩, fun a _ _ hk => rotl_eq_rotateLeft a hk,
    fun _ hs => ⟨_, nextDraw_raw64_of_seeded hs, rfl, rfl, rfl⟩, fun _ _ => exec_isDraw_of_unseeded⟩

/-- Settles O26: the words of `SeedExpand` are not all 0, so SEED succeeds. -/
theorem seedCommand : Obligations.SeedCommand := by
  unfold Obligations.SeedCommand
  intro mix g
  have hmix : mix64 = mix := funext mix64_eq
  refine ⟨rfl, fun s => ?_, rfl⟩
  intro a b c d
  have hexpand : seedExpand s.opa
      = { Engine.reset with s0 := a, s1 := b, s2 := c, s3 := d } := by
    rw [seedExpand_eq, hmix]
  have hne : ¬(a = 0 ∧ b = 0 ∧ c = 0 ∧ d = 0) := fun hzero => by
    have hseeded := seedExpand_seeded s.opa
    rw [hexpand, (Engine.seeded_eq_false_iff _).mpr hzero] at hseeded
    cases hseeded
  rw [exec_seed, hexpand, if_neg hne]
  rfl

/-- Settles O29: a 64-bit draw is one engine step in either reading, and so is a RANGE on path 2. -/
theorem next64Commands : Obligations.Next64Commands := by
  refine ⟨rfl, rfl, fun s hs => ?_, fun s => ⟨fun hopa hopb => ?_, fun hopa hopb => ?_⟩, fun s hs => ?_, ?_, ?_⟩
  · exact ⟨nextDraw_raw64_of_seeded hs, nextDraw_raw64_of_seeded hs, rfl, rfl, rfl, rfl, rfl, rfl, rfl⟩
  · exact rangeDraw_full (w := 64) (by decide) (by rw [State.rangeMin, hopa]; rfl) (by rw [State.rangeMax, hopb]; rfl)
  · exact rangeDraw_full (w := 64) (by decide) (by rw [State.rangeMin, hopa]; rfl) (by rw [State.rangeMax, hopb]; rfl)
  · exact ⟨exec_isDraw_of_unseeded rfl hs, exec_isDraw_of_unseeded rfl hs⟩
  · decide
  · decide

/-- Settles O52: SEED always succeeds, so the EngineState it leaves is a function of `OPA`, and it alone decides what
later commands answer. -/
theorem sameSeedSameAnswers : Obligations.SameSeedSameAnswers := by
  intro s t s' t' calls hopa h h'
  obtain rfl := Host.Outcome.next.inj (h.symm.trans (exec_seed s))
  obtain rfl := Host.Outcome.next.inj (h'.symm.trans (exec_seed s'))
  apply answers_congr calls
  rw [State.succeed_engine, State.succeed_engine, hopa]

/-- Settles O28: NOP is `State.succeed`. -/
theorem nopCommand : Obligations.NopCommand := ⟨rfl, fun _ => rfl, rfl⟩

end Sys2Proof.Machine

/-! PROOFS. The bounded generator: the arithmetic of a range, what `Lemire_W` and `Bounded_W` return, and the RANGE
commands path by path (41_bounded.md R170-R186). -/

namespace Sys2Proof.Machine

/-! ### The values of `uW` and `sW` (R104, R171) -/

section Readings

variable {w : Nat} {sgn : Bool}

theorem rangeLo_le_readAs (sgn : Bool) (v : BitVec w) : rangeLo w sgn ≤ readAs sgn v := by
  cases sgn with
  | false => exact Int.natCast_nonneg v.toNat
  | true => exact_mod_cast v.le_toInt

theorem readAs_le_rangeHi (sgn : Bool) (v : BitVec w) : readAs sgn v ≤ rangeHi w sgn := by
  cases sgn with
  | false =>
    have hlt : (v.toNat : Int) < (2 ^ w : Nat) := Int.ofNat_lt.mpr v.isLt
    exact Int.le_sub_one_of_lt hlt
  | true =>
    have hlt : v.toInt < (2 ^ (w - 1) : Nat) := by exact_mod_cast v.toInt_lt
    exact Int.le_sub_one_of_lt hlt

/-- A value of the type is what its own pattern reads as. -/
theorem readAs_ofInt (hw : 0 < w) {v : Int} (hlo : rangeLo w sgn ≤ v) (hhi : v ≤ rangeHi w sgn) :
    readAs sgn (BitVec.ofInt w v) = v := by
  cases sgn with
  | false =>
    have hlt : v < (2 ^ w : Nat) := Int.lt_of_le_sub_one hhi
    change ((BitVec.ofInt w v).toNat : Int) = v
    rw [BitVec.toNat_ofInt, Int.emod_eq_of_lt hlo hlt, Int.toNat_of_nonneg hlo]
  | true =>
    have hlt : v < (2 ^ (w - 1) : Nat) := Int.lt_of_le_sub_one hhi
    exact BitVec.toInt_ofInt_eq_self hw (by exact_mod_cast hlo) (by exact_mod_cast hlt)

/-- The types `uW` and `sW` have `2^W` values each. -/
theorem rangeHi_sub_rangeLo (hw : 0 < w) (sgn : Bool) : rangeHi w sgn - rangeLo w sgn = (2 ^ w : Nat) - 1 := by
  cases sgn with
  | false => exact Int.sub_zero _
  | true =>
    have hhalves : 2 ^ (w - 1) + 2 ^ (w - 1) = 2 ^ w := Nat.two_pow_pred_add_two_pow_pred hw
    simp only [rangeHi, rangeLo, if_true]
    omega

theorem ofInt_readAs_add (sgn : Bool) (a : BitVec w) (h : Nat) :
    BitVec.ofInt w (readAs sgn a + (h : Int)) = a + BitVec.ofNat w h := by
  rw [BitVec.ofInt_add, ofInt_readAs, BitVec.ofInt_natCast]

theorem ofInt_readAs_sub (sgn : Bool) (a b : BitVec w) :
    BitVec.ofInt w (readAs sgn b - readAs sgn a) = b - a := by
  rw [Int.sub_eq_add_neg, BitVec.ofInt_add, BitVec.ofInt_neg, ofInt_readAs, ofInt_readAs, BitVec.sub_eq_add_neg]

/-- The extension of a drawn value holds the value in its low bits (R110). -/
theorem extractLsb'_widen (hw : w ≤ 64) (sgn : Bool) (v : BitVec w) : (widen sgn v).extractLsb' 0 w = v := by
  ext i hi
  have hi64 : i < 64 := by omega
  cases sgn <;> simp [widen, hi, hi64, BitVec.getElem_signExtend]

end Readings

/-! ### The size of a range on path 4 (R172, R176) -/

section Size

variable {w : Nat} {sgn : Bool} {min max : Int}

theorem size_of_pathFour (hw : 0 < w) (hlo : rangeLo w sgn ≤ min) (hhi : max ≤ rangeHi w sgn) (hlt : min < max)
    (hfull : ¬(min = rangeLo w sgn ∧ max = rangeHi w sgn)) :
    2 ≤ (max - min + 1).toNat ∧ (max - min + 1).toNat ≤ 2 ^ w - 1 := by
  have hall := rangeHi_sub_rangeLo hw sgn
  omega

/-- Operands in order are as far apart as their patterns, in either reading. -/
theorem toNat_sub_of_readAs_lt {a b : BitVec w} (hw : 0 < w) (hlt : readAs sgn a < readAs sgn b) :
    ((b - a).toNat : Int) = readAs sgn b - readAs sgn a := by
  have hlo := rangeLo_le_readAs sgn a
  have hhi := readAs_le_rangeHi sgn b
  have hall := rangeHi_sub_rangeLo hw sgn
  have hnonneg : 0 ≤ readAs sgn b - readAs sgn a := by omega
  rw [← ofInt_readAs_sub sgn a b, BitVec.toNat_ofInt, Int.emod_eq_of_lt hnonneg (by omega),
    Int.toNat_of_nonneg hnonneg]

end Size

/-- Settles O44: a type has `2^W` values, so only the full range has a size above `2^W - 1`. -/
theorem rangeArithmeticFitsWidth : Obligations.RangeArithmeticFitsWidth := by
  intro w sgn a b hw
  refine ⟨fun hlt hfull => ?_, ofInt_readAs_add sgn a⟩
  obtain ⟨htwo, hmax⟩ := size_of_pathFour hw (rangeLo_le_readAs sgn a) (readAs_le_rangeHi sgn b) hlt hfull
  have hsub := toNat_sub_of_readAs_lt hw hlt
  exact ⟨htwo, hmax, by omega⟩

/-! ### The threshold (R174) -/

theorem sub_if_fits_mod (t range : Nat) : (if range ≤ t then t - range else t) % range = t % range := by
  split
  case isTrue h => exact (Nat.mod_eq_sub_mod h).symm
  case isFalse => rfl

theorem mod_if_fits (t range : Nat) : (if range ≤ t then t % range else t) = t % range := by
  split
  case isTrue => rfl
  case isFalse h => exact (Nat.mod_eq_of_lt (Nat.lt_of_not_le h)).symm

/-- Settles O43: taking `range` off where it fits does not change the remainder. -/
theorem thresholdBySubtraction : Obligations.ThresholdBySubtraction := by
  intro w range htwo hmax t0 t1 t2 t3
  have ht3 : t3 = threshold w range :=
    calc t3 = t2 % range := mod_if_fits t2 range
      _ = t1 % range := sub_if_fits_mod t1 range
      _ = t0 % range := sub_if_fits_mod t0 range
  exact ⟨by omega, ht3, rfl, Nat.mod_lt _ (by omega)⟩

/-! ### The value of `Lemire_W` (R173) -/

section Lemire

variable {w range : Nat} {raw : Engine → Draw w} {e : Engine}

theorem highPart_lt (hrange : 0 < range) (x : BitVec w) : highPart range x < range :=
  Nat.div_lt_of_lt_mul (Nat.mul_lt_mul_of_pos_right x.isLt hrange)

theorem toNat_ofNat_highPart (hrange : 0 < range) (hmax : range ≤ 2 ^ w - 1) (x : BitVec w) :
    (BitVec.ofNat w (highPart range x)).toNat = highPart range x := by
  have hlt := highPart_lt hrange x
  rw [BitVec.toNat_ofNat, Nat.mod_eq_of_lt (by omega)]

theorem lemire_value_lt {d : Draw w} (hrange : 0 < range) (h : lemire raw range e = some d) :
    d.value.toNat < range := by
  obtain ⟨r, -, rfl⟩ := Option.map_eq_some_iff.mp h
  exact (Nat.mod_le _ _).trans_lt (highPart_lt hrange r.value)

end Lemire

/-- Settles O41: the loop ends at the first accepted draw, and the high half of a product with `range` is below
`range`. -/
theorem lemireEndsAtFirstAcceptedDraw : Obligations.LemireEndsAtFirstAcceptedDraw := by
  intro w raw range k e htwo hmax hredrawn haccepted
  have hrange : 0 < range := by omega
  have hvalue := toNat_ofNat_highPart hrange hmax (drawAt raw k e).value
  exact ⟨_, lemire_of_first_accepted hrange hredrawn haccepted, hvalue,
    hvalue.trans_lt (highPart_lt hrange _), rfl, rfl⟩

/-! ### `Bounded_W`, path by path (R171, R177) -/

section Bounded

variable {w k : Nat} {raw : Engine → Draw w} {sgn : Bool} {min max : Int} {e : Engine}

theorem bounded_of_eq (h : min = max) : bounded raw sgn min max e = .value min e 0 := if_pos h

theorem bounded_full (hw : 0 < w) (hmin : min = rangeLo w sgn) (hmax : max = rangeHi w sgn) :
    bounded raw sgn min max e = .value (readAs sgn (raw e).value) (raw e).engine (raw e).steps := by
  have hne : min ≠ max := hmin ▸ hmax ▸ (rangeLo_lt_rangeHi hw sgn).ne
  exact (if_neg hne).trans (if_pos ⟨hmin, hmax⟩)

theorem bounded_of_gt (h : max < min) : bounded raw sgn min max e = .invalidRange := by
  have hfull : ¬(min = rangeLo w sgn ∧ max = rangeHi w sgn) := fun ⟨hmin, hmax⟩ =>
    (rangeLo_le_rangeHi w sgn).not_gt (hmin ▸ hmax ▸ h)
  exact (if_neg h.ne').trans ((if_neg hfull).trans (if_pos h))

theorem bounded_pathFour (hw : 0 < w) (hlo : rangeLo w sgn ≤ min) (hhi : max ≤ rangeHi w sgn) (hlt : min < max)
    (hfull : ¬(min = rangeLo w sgn ∧ max = rangeHi w sgn))
    (hredrawn : ∀ j, j < k → redraws (max - min + 1).toNat (drawAt raw j e).value)
    (haccepted : ¬redraws (max - min + 1).toNat (drawAt raw k e).value) :
    bounded raw sgn min max e = .value
      (min + highPart (max - min + 1).toNat (drawAt raw k e).value)
      (drawEngine raw (k + 1) e) (drawSteps raw (k + 1) e) := by
  obtain ⟨htwo, hmax⟩ := size_of_pathFour hw hlo hhi hlt hfull
  have hrange : 0 < (max - min + 1).toNat := by omega
  have hlemire := lemire_of_first_accepted hrange hredrawn haccepted
  simp only [bounded, hlt.ne, hfull, hlt.not_gt, hlemire, toNat_ofNat_highPart hrange hmax, if_false]

/-- A value that `Bounded_W` returns lies between its operands (R186). -/
theorem bounded_value_mem {v : Int} {f : Engine} {steps : Nat} (h : bounded raw sgn min max e = .value v f steps) :
    min ≤ v ∧ v ≤ max := by
  rcases bounded_cases raw sgn min max e with
    ⟨heq, hb⟩ | ⟨-, ⟨hmin, hmax⟩, hb⟩ | ⟨-, -, -, hb⟩ | ⟨-, -, -, hb⟩ | ⟨hlt, -, d, hd, hb⟩ <;>
      rw [hb] at h <;> cases h
  · exact ⟨le_rfl, heq.le⟩
  · exact ⟨hmin ▸ rangeLo_le_readAs sgn _, hmax ▸ readAs_le_rangeHi sgn _⟩
  · have hvalue := lemire_value_lt (by omega) hd
    omega

end Bounded

/-- Settles O46: each path of `Bounded_W` with the raw draws it makes. -/
theorem entropyConsumed : Obligations.EntropyConsumed := by
  intro w raw sgn min max e hw hlo _ _ hhi
  refine ⟨bounded_of_eq, bounded_of_gt, bounded_full hw, fun k hlt hfull hredrawn haccepted => ?_⟩
  rw [Nat.add_comm 1 k]
  have hvalue := bounded_pathFour hw hlo hhi hlt hfull hredrawn haccepted
  exact ⟨_, hvalue, bounded_value_mem hvalue⟩

/-! ### A RANGE command (R170) -/

section Range

variable {i : Instr} {w : Nat} {raw : Engine → Draw w} {sgn : Bool} {s t : State}

theorem exec_of_rangeForm (h : rangeForm i = some (w, sgn)) :
    ∃ raw : Engine → Draw w, IsRawDraw raw ∧ exec i = rangeDraw raw sgn := by
  cases i <;> cases h
  case rangeU8 | rangeS8 => exact ⟨_, .raw8, rfl⟩
  case rangeU16 | rangeS16 => exact ⟨_, .raw16, rfl⟩
  case rangeU32 | rangeS32 => exact ⟨_, .raw32, rfl⟩
  case rangeU64 | rangeS64 => exact ⟨_, .raw64, rfl⟩

theorem IsRawDraw.width_le (h : IsRawDraw raw) : w ≤ 64 := by
  cases h <;> decide

/-- A RANGE that ends with `ERR` 0 has drawn what `Bounded_W` returned. -/
theorem rangeDraw_succeeds (h : rangeDraw raw sgn s = .next t) (hphase : t.phase = .idle) (herr : t.err = 0) :
    ∃ v : Int, s.rangeMin w sgn ≤ v ∧ v ≤ s.rangeMax w sgn ∧ t.result = widen sgn (BitVec.ofInt w v) := by
  rcases rangeDraw_cases raw sgn s with ⟨-, hr⟩ | ⟨-, -, hr⟩ | ⟨-, -, hr⟩ | ⟨-, v, f, steps, hb, hr⟩ <;>
    obtain rfl := Host.Outcome.next.inj (h.symm.trans hr)
  · exact absurd herr (ErrorKind.code_ne_zero .notSeeded)
  · exact absurd herr (ErrorKind.code_ne_zero .invalidRange)
  · cases hphase
  · obtain ⟨hmin, hmax⟩ := bounded_value_mem hb
    exact ⟨v, hmin, hmax, rfl⟩

theorem rangeDraw_of_value {v : Int} {f : Engine} {steps : Nat} (hs : s.seeded = true)
    (h : bounded raw sgn (s.rangeMin w sgn) (s.rangeMax w sgn) s.engine = .value v f steps) :
    rangeDraw raw sgn s = .next (s.drew f steps (widen sgn (BitVec.ofInt w v))) := by
  rw [rangeDraw, if_pos hs, h]

theorem rangeDraw_of_gt (hs : s.seeded = true) (h : s.rangeMax w sgn < s.rangeMin w sgn) :
    rangeDraw raw sgn s = .next (s.raise .invalidRange) := by
  rw [rangeDraw, if_pos hs, bounded_of_gt h]

theorem State.drew_of_no_draw (s : State) (result : Word) :
    s.drew s.engine 0 result = { s with result := result, err := 0, phase := .idle } := by
  simp only [State.drew, BitVec.add_zero]
  rfl

theorem fullRange_iff (w : Nat) (sgn : Bool) (min max : Int) :
    (if sgn then min = -(2 ^ (w - 1)) ∧ max = 2 ^ (w - 1) - 1 else min = 0 ∧ max = 2 ^ w - 1)
      ↔ min = rangeLo w sgn ∧ max = rangeHi w sgn := by
  cases sgn <;> simp [rangeLo, rangeHi]

/-- What the rules say of a RANGE command holds of every command that is a RANGE over a raw draw. -/
theorem rangeMeaning_of_exec (hw : 0 < w) (hexec : exec i = rangeDraw raw sgn) : rangeMeaning i raw sgn := by
  intro s hs a b min max full extend
  have hfull : full ↔ min = rangeLo w sgn ∧ max = rangeHi w sgn := fullRange_iff w sgn min max
  rw [hexec]
  refine ⟨fun heq => ?_, fun h => ?_, rangeDraw_of_gt hs, ?_⟩
  · rw [rangeDraw_of_value hs (bounded_of_eq heq), State.drew_of_no_draw, State.rangeMin, ofInt_readAs]
    rfl
  · obtain ⟨hmin, hmax⟩ := hfull.mp h
    rw [rangeDraw_full hw hmin hmax, nextDraw_of_seeded hs]
    rfl
  · intro k hlt h range hredrawn haccepted
    exact rangeDraw_of_value hs (bounded_pathFour hw (rangeLo_le_readAs sgn a) (readAs_le_rangeHi sgn b) hlt
      (hfull.not.mp h) hredrawn haccepted)

end Range

/-- Settles O45: what was drawn lies between the operands, so its low W bits read as itself. -/
theorem rangeResultInBounds : Obligations.RangeResultInBounds := by
  intro i w sgn s t hform hexec hphase herr v value
  obtain ⟨raw, hraw, he⟩ := exec_of_rangeForm hform
  obtain ⟨x, hmin, hmax, hresult⟩ := rangeDraw_succeeds (he ▸ hexec) hphase herr
  have hv : v = BitVec.ofInt w x := by
    rw [← extractLsb'_widen hraw.width_le sgn (BitVec.ofInt w x), ← hresult]
  have hvalue : value = x :=
    calc value = readAs sgn (BitVec.ofInt w x) := congrArg (readAs sgn) hv
      _ = x := readAs_ofInt hraw.width_pos ((rangeLo_le_readAs sgn _).trans hmin)
        (hmax.trans (readAs_le_rangeHi sgn _))
  rw [hvalue, hv]
  exact ⟨hmin, hmax, hresult⟩

/-! ### The RANGE commands (R178-R185) -/

/-- Settles O37: the four paths of `Bounded_8`; among bytes, `255 * x` has low byte 0 for `x = 0` only. -/
theorem range8Commands : Obligations.Range8Commands := by
  refine ⟨by decide, by decide, rangeMeaning_of_exec (by decide) rfl, rangeMeaning_of_exec (by decide) rfl,
    fun s hs => ⟨exec_isDraw_of_unseeded rfl hs, exec_isDraw_of_unseeded rfl hs⟩,
    ⟨by decide, by decide, fun x => ?_⟩, by decide, by decide, ?_, ⟨_, rfl, rfl⟩⟩
  · rw [redraws]
    bv_omega
  · exact rangeDraw_of_gt (raw := Engine.raw8) (sgn := true) (s := { seedOne with opa := 0x05, opb := 0xFB })
      (by decide) (by decide)

/-- Settles O38: the four paths of `Bounded_16`. -/
theorem range16Commands : Obligations.Range16Commands :=
  ⟨by decide, by decide, rangeMeaning_of_exec (by decide) rfl, rangeMeaning_of_exec (by decide) rfl,
    fun _ hs => ⟨exec_isDraw_of_unseeded rfl hs, exec_isDraw_of_unseeded rfl hs⟩, by decide, by decide⟩

/-- Settles O39: the four paths of `Bounded_32`. -/
theorem range32Commands : Obligations.Range32Commands :=
  ⟨by decide, by decide, rangeMeaning_of_exec (by decide) rfl, rangeMeaning_of_exec (by decide) rfl,
    fun _ hs => ⟨exec_isDraw_of_unseeded rfl hs, exec_isDraw_of_unseeded rfl hs⟩, by decide, by decide, by decide⟩

theorem drawSteps_raw64 (k : Nat) (e : Engine) : drawSteps Engine.raw64 k e = k := by
  induction k generalizing e with
  | zero => rfl
  | succ k ih => rw [drawSteps, ih, Engine.raw64_eq, Engine.step_steps, Nat.add_comm]

theorem sameCache_raw64 (c : Cache) (e : Engine) : sameCache c (Engine.raw64 e).engine e := by
  cases c with
  | bool | byte | word => exact ⟨rfl, rfl⟩
  | half => rfl

theorem sameCache.refl (c : Cache) (e : Engine) : sameCache c e e := by
  cases c with
  | bool | byte | word => exact ⟨rfl, rfl⟩
  | half => rfl

theorem sameCache.trans {c : Cache} {e f g : Engine} (h : sameCache c e f) (h' : sameCache c f g) :
    sameCache c e g := by
  cases c with
  | bool | byte | word =>
    obtain ⟨hrem, hbits⟩ := h
    obtain ⟨hrem', hbits'⟩ := h'
    exact ⟨hrem.trans hrem', hbits.trans hbits'⟩
  | half => exact Eq.trans h h'

theorem sameCache_drawEngine_raw64 (c : Cache) (k : Nat) (e : Engine) :
    sameCache c (drawEngine Engine.raw64 k e) e :=
  drawEngine_rel Engine.raw64 (fun e f => sameCache c f e) (sameCache.refl c)
    (fun _ _ _ h h' => h'.trans h) (sameCache_raw64 c) k e

/-- Settles O40: the four paths of `Bounded_64`, and an engine step for every raw draw. -/
theorem range64Commands : Obligations.Range64Commands :=
  ⟨by decide, by decide, rangeMeaning_of_exec (by decide) rfl, rangeMeaning_of_exec (by decide) rfl,
    fun _ hs => ⟨exec_isDraw_of_unseeded rfl hs, exec_isDraw_of_unseeded rfl hs⟩,
    fun k e => ⟨drawSteps_raw64 k e, fun c => sameCache_drawEngine_raw64 c k e⟩, by decide, by decide, by decide⟩

end Sys2Proof.Machine

/-! PROOFS. The sub-word caches: what a raw draw takes from its cache, the engine steps it costs and the caches it leaves,
and the NEXT commands for widths 1 to 32 (42_subword_cache.md R200-R213). -/

namespace Sys2Proof.Machine

/-! ### The four caches as one pattern (R200-R203)

`pending32` fits the pattern too: a buffer of two units of 32 bits, the second of which is what the option holds. -/

/-- The bits of one unit. -/
def Cache.width : Cache → Nat
  | .bool => 1
  | .byte => 8
  | .word => 16
  | .half => 32

/-- The units a refill grants. -/
def Cache.units : Cache → Nat
  | .bool => 64
  | .byte => 8
  | .word => 4
  | .half => 2

/-- The units an engine holds in the cache. -/
def Cache.unitsLeft (e : Engine) : Cache → Nat
  | .bool => e.boolRem.toNat
  | .byte => e.byteRem.toNat
  | .word => e.wordRem.toNat
  | .half => if e.pending32.isSome then 1 else 0

/-- The buffer those units stand in, the next one lowest. -/
def Cache.buffer (e : Engine) : Cache → Word
  | .bool => e.boolBits
  | .byte => e.byteBits
  | .word => e.wordBits
  | .half => (e.pending32.getD 0).setWidth 64

/-- The raw draw that takes its value from the cache. -/
def Cache.draw : (c : Cache) → Engine → Draw c.width
  | .bool => Engine.raw1
  | .byte => Engine.raw8
  | .word => Engine.raw16
  | .half => Engine.raw32

/-- The engine e with one cache as f holds it. -/
def Engine.withCacheOf (e f : Engine) : Cache → Engine
  | .bool => { e with boolRem := f.boolRem, boolBits := f.boolBits }
  | .byte => { e with byteRem := f.byteRem, byteBits := f.byteBits }
  | .word => { e with wordRem := f.wordRem, wordBits := f.wordBits }
  | .half => { e with pending32 := f.pending32 }

/-- The draw d made n engine steps, which left p, and took the lowest of `left` units from the buffer x of cache c; it
changed nothing else. -/
structure Cache.TookUnit (c : Cache) (d : Draw c.width) (p : Engine) (n left : Nat) (x : Word) : Prop where
  value : d.value = x.extractLsb' 0 c.width
  steps : d.steps = n
  frame : d.engine = p.withCacheOf d.engine c
  unitsLeft : c.unitsLeft d.engine = left - 1
  buffer : c.buffer d.engine = x >>> c.width

section Caches

variable {c c' : Cache} {e f p q : Engine} {d d' : Draw c.width} {n left : Nat} {x : Word}

theorem Cache.width_mul_units (c : Cache) : c.width * c.units = 64 := by cases c <;> rfl

theorem Cache.units_pos (c : Cache) : 0 < c.units := by cases c <;> decide

theorem Cache.unitsLeft_half_of_some {half : BitVec 32} (h : e.pending32 = some half) :
    Cache.half.unitsLeft e = 1 := by
  simp [Cache.unitsLeft, h]

theorem Cache.unitsLeft_bool_eq_zero : Cache.bool.unitsLeft e = 0 ↔ e.boolRem = 0 :=
  BitVec.toNat_inj (y := 0)

theorem Cache.unitsLeft_byte_eq_zero : Cache.byte.unitsLeft e = 0 ↔ e.byteRem = 0 :=
  BitVec.toNat_inj (y := 0)

theorem Cache.unitsLeft_word_eq_zero : Cache.word.unitsLeft e = 0 ↔ e.wordRem = 0 :=
  BitVec.toNat_inj (y := 0)

theorem Cache.unitsLeft_half_eq_zero : Cache.half.unitsLeft e = 0 ↔ e.pending32 = none := by
  simp [Cache.unitsLeft]

theorem sameCache_iff : sameCache c e f ↔ c.unitsLeft e = c.unitsLeft f ∧ c.buffer e = c.buffer f := by
  cases c with
  | bool | byte | word => exact and_congr_left' BitVec.toNat_inj.symm
  | half =>
    have hwidth : ∀ a b : BitVec 32, a.setWidth 64 = b.setWidth 64 ↔ a = b := fun a b => by bv_omega
    cases he : e.pending32 <;> cases hf : f.pending32 <;>
      simp [sameCache, Cache.unitsLeft, Cache.buffer, he, hf, hwidth]

theorem samePermutation_withCacheOf : samePermutation (e.withCacheOf f c) e := by
  cases c <;> exact ⟨rfl, rfl, rfl, rfl⟩

theorem sameCache_withCacheOf (h : c' ≠ c) : sameCache c' (e.withCacheOf f c) e := by
  cases c <;> cases c' <;> simp [sameCache, Engine.withCacheOf] at h ⊢

theorem samePermutation.symm (h : samePermutation e f) : samePermutation f e := by
  obtain ⟨h0, h1, h2, h3⟩ := h
  exact ⟨h0.symm, h1.symm, h2.symm, h3.symm⟩

/-- The word of an engine step depends on the permutation state only (R140). -/
theorem samePermutation.output (h : samePermutation e f) : e.output = f.output := by
  obtain ⟨-, h1, -, -⟩ := h
  rw [Engine.output, Engine.output, h1]

/-! ### What a raw draw takes -/

theorem toNat_sub_one {w : Nat} {r : BitVec w} (h : r.toNat ≠ 0) : (r - 1).toNat = r.toNat - 1 := by
  have hpow : 1 < 2 ^ w := by have := r.isLt; omega
  have hone : (1 : BitVec w).toNat = 1 := Nat.mod_eq_of_lt hpow
  have hle : 1 ≤ r := by rw [BitVec.le_def, hone]; omega
  rw [BitVec.toNat_sub_of_le hle, hone]

/-- The high half of a word is what its low half leaves when it is shifted out. -/
theorem setWidth_extractLsb'_half (x : Word) : (x.extractLsb' 32 32).setWidth 64 = x >>> 32 := by
  apply BitVec.eq_of_toNat_eq
  rw [BitVec.toNat_setWidth_of_le (by decide), BitVec.extractLsb'_toNat, BitVec.toNat_ushiftRight,
    Nat.shiftRight_eq_div_pow]
  omega

/-- Nothing is left of a word whose high half is 0. -/
theorem setWidth_ushiftRight_half (half : BitVec 32) : half.setWidth 64 >>> 32 = 0 := by
  ext i hi
  simp

/-- With a unit left a raw draw makes no engine step. -/
theorem Cache.draw_of_left (h : c.unitsLeft e ≠ 0) : c.TookUnit (c.draw e) e 0 (c.unitsLeft e) (c.buffer e) := by
  cases c with
  | bool =>
    have hdraw : Cache.bool.draw e = _ := Engine.raw1_of_left (Cache.unitsLeft_bool_eq_zero.not.mp h)
    rw [hdraw]
    exact ⟨rfl, rfl, rfl, toNat_sub_one h, rfl⟩
  | byte =>
    have hdraw : Cache.byte.draw e = _ := Engine.raw8_of_left (Cache.unitsLeft_byte_eq_zero.not.mp h)
    rw [hdraw]
    exact ⟨rfl, rfl, rfl, toNat_sub_one h, rfl⟩
  | word =>
    have hdraw : Cache.word.draw e = _ := Engine.raw16_of_left (Cache.unitsLeft_word_eq_zero.not.mp h)
    rw [hdraw]
    exact ⟨rfl, rfl, rfl, toNat_sub_one h, rfl⟩
  | half =>
    cases hpending : e.pending32 with
    | none => exact absurd (Cache.unitsLeft_half_eq_zero.mpr hpending) h
    | some half =>
      have hdraw : Cache.half.draw e = _ := Engine.raw32_of_pending hpending
      rw [hdraw, Cache.unitsLeft_half_of_some hpending]
      have hbuffer : Cache.half.buffer e = half.setWidth 64 := by rw [Cache.buffer, hpending]; rfl
      rw [hbuffer]
      exact ⟨(extractLsb'_widen (by decide) false half).symm, rfl, rfl, rfl, (setWidth_ushiftRight_half half).symm⟩

/-- From an empty cache a raw draw makes one engine step, whose word becomes the buffer. -/
theorem Cache.draw_of_empty (h : c.unitsLeft e = 0) : c.TookUnit (c.draw e) e.advance 1 c.units e.output := by
  cases c with
  | bool =>
    have hdraw : Cache.bool.draw e = _ := Engine.raw1_of_empty (Cache.unitsLeft_bool_eq_zero.mp h)
    rw [hdraw]
    exact ⟨rfl, rfl, rfl, rfl, rfl⟩
  | byte =>
    have hdraw : Cache.byte.draw e = _ := Engine.raw8_of_empty (Cache.unitsLeft_byte_eq_zero.mp h)
    rw [hdraw]
    exact ⟨rfl, rfl, rfl, rfl, rfl⟩
  | word =>
    have hdraw : Cache.word.draw e = _ := Engine.raw16_of_empty (Cache.unitsLeft_word_eq_zero.mp h)
    rw [hdraw]
    exact ⟨rfl, rfl, rfl, rfl, rfl⟩
  | half =>
    cases hpending : e.pending32 with
    | none =>
      have hdraw : Cache.half.draw e = _ := Engine.raw32_of_absent hpending
      rw [hdraw]
      exact ⟨rfl, rfl, rfl, rfl, setWidth_extractLsb'_half e.output⟩
    | some half => exact absurd (h.symm.trans (Cache.unitsLeft_half_of_some hpending)) (by decide)

/-! ### A raw draw reads and writes its own cache only (R205) -/

theorem Cache.TookUnit.permutation (h : c.TookUnit d p n left x) : samePermutation d.engine p :=
  h.frame ▸ samePermutation_withCacheOf

theorem Cache.TookUnit.sameCache_of_ne (h : c.TookUnit d p n left x) (hc : c' ≠ c) : sameCache c' d.engine p :=
  h.frame ▸ sameCache_withCacheOf hc

theorem Cache.draw_sameCache_of_ne (h : c' ≠ c) (e : Engine) : sameCache c' (c.draw e).engine e := by
  by_cases hempty : c.unitsLeft e = 0
  · exact ((Cache.draw_of_empty hempty).sameCache_of_ne h).trans (sameCache_raw64 c' e)
  · exact (Cache.draw_of_left hempty).sameCache_of_ne h

theorem Cache.TookUnit.alike (h : c.TookUnit d p n left x) (h' : c.TookUnit d' q n left x)
    (hpq : samePermutation p q) :
    d.value = d'.value ∧ d.steps = d'.steps ∧ samePermutation d.engine d'.engine ∧ sameCache c d.engine d'.engine :=
  ⟨h.value.trans h'.value.symm, h.steps.trans h'.steps.symm,
    h.permutation.trans (hpq.trans h'.permutation.symm),
    sameCache_iff.mpr ⟨h.unitsLeft.trans h'.unitsLeft.symm, h.buffer.trans h'.buffer.symm⟩⟩

theorem Cache.draw_alike (hp : samePermutation e f) (hc : sameCache c e f) :
    (c.draw e).value = (c.draw f).value ∧ (c.draw e).steps = (c.draw f).steps
      ∧ samePermutation (c.draw e).engine (c.draw f).engine ∧ sameCache c (c.draw e).engine (c.draw f).engine := by
  obtain ⟨hleft, hbuffer⟩ := sameCache_iff.mp hc
  by_cases hempty : c.unitsLeft e = 0
  · have hf := Cache.draw_of_empty (hleft ▸ hempty)
    exact (Cache.draw_of_empty hempty).alike (hp.output ▸ hf) hp.advance
  · have hf := Cache.draw_of_left (hleft ▸ hempty)
    exact (Cache.draw_of_left hempty).alike (hleft ▸ hbuffer ▸ hf) hp

/-! ### Engine steps per raw draw (R213) -/

theorem Engine.raw32_steps (e : Engine) : e.raw32.steps = if e.pending32 = none then 1 else 0 := by
  cases hpending : e.pending32 with
  | none => rw [Engine.raw32_of_absent hpending]; rfl
  | some half => rw [Engine.raw32_of_pending hpending]; rfl

/-- The units left come one by one, without an engine step. -/
theorem Cache.drawSteps_of_left {k : Nat} (h : k ≤ c.unitsLeft e) :
    drawSteps c.draw k e = 0 ∧ c.unitsLeft (drawEngine c.draw k e) = c.unitsLeft e - k := by
  induction k generalizing e with
  | zero => exact ⟨rfl, rfl⟩
  | succ k ih =>
    have hdraw := Cache.draw_of_left (c := c) (e := e) (by omega)
    obtain ⟨hsteps, hleft⟩ := ih (e := (c.draw e).engine) (by rw [hdraw.unitsLeft]; omega)
    rw [drawSteps, drawEngine, hsteps, hleft, hdraw.steps, hdraw.unitsLeft]
    omega

/-- A refill and the draws that use it up cost one engine step and leave the cache empty. -/
theorem Cache.drawSteps_units (h : c.unitsLeft e = 0) :
    drawSteps c.draw c.units e = 1 ∧ c.unitsLeft (drawEngine c.draw c.units e) = 0 := by
  have hdraw := Cache.draw_of_empty h
  obtain ⟨hsteps, hleft⟩ := Cache.drawSteps_of_left (c := c) (e := (c.draw e).engine) hdraw.unitsLeft.ge
  obtain ⟨m, hm⟩ := Nat.exists_eq_add_one.mpr c.units_pos
  rw [hdraw.unitsLeft, Nat.sub_self] at hleft
  rw [hm, Nat.add_sub_cancel] at hsteps hleft
  rw [hm, drawSteps, drawEngine, hdraw.steps, hsteps, hleft]
  exact ⟨rfl, rfl⟩

theorem Cache.drawSteps_units_mul (n : Nat) (h : c.unitsLeft e = 0) : drawSteps c.draw (c.units * n) e = n := by
  induction n generalizing e with
  | zero => rfl
  | succ n ih =>
    obtain ⟨hsteps, hleft⟩ := Cache.drawSteps_units h
    rw [Nat.mul_succ, Nat.add_comm, drawSteps_add, hsteps, ih hleft, Nat.add_comm]

/-! ### A buffer holds no bit beyond its counter (R213) -/

/-- The bits above the units left are 0. -/
def Cache.fits (e : Engine) (c : Cache) : Prop := (c.buffer e).toNat < 2 ^ (c.width * c.unitsLeft e)

theorem Cache.fits_half (e : Engine) : Cache.half.fits e := by
  cases hpending : e.pending32 with
  | none => simp [Cache.fits, Cache.buffer, Cache.unitsLeft, hpending]
  | some half =>
    rw [Cache.fits, Cache.buffer, hpending, Cache.unitsLeft_half_of_some hpending]
    exact (BitVec.toNat_setWidth_of_le (by decide)).trans_lt half.isLt

theorem buffersFit_iff : buffersFit e ↔ ∀ c, Cache.fits e c := by
  refine ⟨fun ⟨hbool, hbyte, hword⟩ c => ?_, fun h => ⟨?_, h .byte, h .word⟩⟩
  · cases c with
    | bool => simpa [Cache.fits, Cache.width, Cache.buffer, Cache.unitsLeft] using hbool
    | byte => exact hbyte
    | word => exact hword
    | half => exact Cache.fits_half e
  · simpa [Cache.fits, Cache.width, Cache.buffer, Cache.unitsLeft] using h .bool

theorem fits_congr (h : sameCache c e f) : c.fits e ↔ c.fits f := by
  obtain ⟨hleft, hbuffer⟩ := sameCache_iff.mp h
  rw [Cache.fits, Cache.fits, hleft, hbuffer]

theorem Cache.TookUnit.fits (h : c.TookUnit d p n left x) (hleft : left ≠ 0)
    (hx : x.toNat < 2 ^ (c.width * left)) : c.fits d.engine := by
  obtain ⟨m, rfl⟩ := Nat.exists_eq_succ_of_ne_zero hleft
  rw [Cache.fits, h.buffer, h.unitsLeft, BitVec.toNat_ushiftRight, Nat.shiftRight_eq_div_pow]
  apply Nat.div_lt_of_lt_mul
  rwa [← Nat.pow_add, Nat.succ_sub_one, Nat.add_comm, ← Nat.mul_succ]

theorem Cache.draw_fits (h : c.fits e) : c.fits (c.draw e).engine := by
  by_cases hempty : c.unitsLeft e = 0
  · refine (Cache.draw_of_empty hempty).fits c.units_pos.ne' ?_
    rw [c.width_mul_units]
    exact e.output.isLt
  · exact (Cache.draw_of_left hempty).fits hempty h

theorem Cache.draw_buffersFit (h : buffersFit e) : buffersFit (c.draw e).engine := by
  rw [buffersFit_iff] at h ⊢
  intro c'
  by_cases hc : c' = c
  · subst hc
    exact Cache.draw_fits (h c')
  · exact (fits_congr (Cache.draw_sameCache_of_ne hc e)).mpr (h c')

theorem buffersFit.bits_eq_zero (h : buffersFit e) :
    (e.boolRem = 0 → e.boolBits = 0) ∧ (e.byteRem = 0 → e.byteBits = 0) ∧ (e.wordRem = 0 → e.wordBits = 0) := by
  obtain ⟨hbool, hbyte, hword⟩ := h
  refine ⟨fun hrem => ?_, fun hrem => ?_, fun hrem => ?_⟩
  · rw [hrem] at hbool
    exact BitVec.eq_of_toNat_eq (Nat.lt_one_iff.mp hbool)
  · rw [hrem] at hbyte
    exact BitVec.eq_of_toNat_eq (Nat.lt_one_iff.mp hbyte)
  · rw [hrem] at hword
    exact BitVec.eq_of_toNat_eq (Nat.lt_one_iff.mp hword)

end Caches

theorem buffersFit_reset : buffersFit Engine.reset := by
  unfold buffersFit
  decide

theorem buffersFit_seedExpand (seed : Word) : buffersFit (seedExpand seed) := buffersFit_reset

theorem IsRawDraw.buffersFit {w : Nat} {raw : Engine → Draw w} (h : IsRawDraw raw) {e : Engine}
    (he : buffersFit e) : buffersFit (raw e).engine := by
  cases h with
  | raw1 => exact Cache.draw_buffersFit (c := .bool) he
  | raw8 => exact Cache.draw_buffersFit (c := .byte) he
  | raw16 => exact Cache.draw_buffersFit (c := .word) he
  | raw32 => exact Cache.draw_buffersFit (c := .half) he
  | raw64 => exact he

theorem exec_seed_buffersFit {s t : State} (h : exec .seed s = .next t) : buffersFit t.engine := by
  obtain rfl := Host.Outcome.next.inj (h.symm.trans (exec_seed s))
  exact buffersFit_seedExpand s.opa

/-- Only RESTORE loads a buffer from outside. -/
theorem exec_buffersFit {i : Instr} {s t : State} (hi : i ≠ .restore) (hs : buffersFit s.engine)
    (h : exec i s = .next t) : buffersFit t.engine := by
  obtain ⟨t', h', heffect⟩ := exec_effect i s
  obtain rfl : t' = t := Host.Outcome.next.inj (h'.symm.trans h)
  rcases heffect with ⟨e, rfl⟩ | ⟨-, rfl⟩ | ⟨-, rfl⟩ | ⟨-, -, rfl⟩ | ⟨-, -, rfl⟩ | ⟨hrestore, -⟩ | ⟨hd, -⟩
  · exact hs
  · exact hs
  · exact hs
  · exact buffersFit_seedExpand s.opa
  · exact hs
  · exact absurd hrestore hi
  · exact exec_isDraw_keeps (fun hr _ he => hr.buffersFit he) hd hs h

theorem hostTurn_engine_or_reset {s t : State} (h : hostTurn s = .next t) :
    t.engine = s.engine ∨ t.engine = Engine.reset := by
  by_cases hreset : ∃ rest, s.host = .reset :: rest
  · obtain ⟨rest, hh⟩ := hreset
    rw [hostTurn, hh] at h
    exact .inr (Host.Outcome.next.inj h ▸ rfl)
  · exact .inl (hostTurn_engine (not_exists.mp hreset) h)

theorem step_buffersFit {s t : State} (hs : buffersFit s.engine)
    (hrestore : ¬(s.phase = .running 0 ∧ decode s.cmd = .ok .restore)) (h : step s = .next t) :
    buffersFit t.engine := by
  by_cases hdue : s.phase = .running 0
  · rcases step_due_effect hdue h with ⟨i, hdecode, hexec, -⟩ | ⟨-, rfl⟩
    · refine exec_buffersFit ?_ hs hexec
      rintro rfl
      exact hrestore ⟨hdue, hdecode⟩
    · exact hs
  · rw [step_of_not_due hdue] at h
    rcases hostTurn_engine_or_reset h with hengine | hengine <;> rw [hengine]
    · exact hs
    · exact buffersFit_reset

/-! ### A NEXT command over a cache, and a RANGE over the full range -/

section Commands

variable {s : State} {w : Nat} {raw : Engine → Draw w} {sgn : Bool}

/-- A draw that steps the engine only to refill (R206-R210). -/
theorem nextDraw_of_refill {empty : Prop} [Decidable empty] (hs : s.seeded = true)
    (hsteps : (raw s.engine).steps = if empty then 1 else 0) :
    nextDraw raw sgn s = .next { s with
      engine := (raw s.engine).engine
      stepCount := if empty then s.stepCount + 1 else s.stepCount
      result := widen sgn (raw s.engine).value
      err := 0
      phase := .idle } := by
  have hcount : s.stepCount + BitVec.ofNat 64 (raw s.engine).steps
      = if empty then s.stepCount + 1 else s.stepCount := by
    rw [hsteps]
    split
    · rfl
    · exact BitVec.add_zero _
  rw [nextDraw_of_seeded hs, State.drew, hcount]
  rfl

theorem nextDraw_raw32_of_pending {half : BitVec 32} (hs : s.seeded = true) (hp : s.engine.pending32 = some half) :
    nextDraw Engine.raw32 sgn s = .next { s with
      engine := { s.engine with pending32 := none }
      result := widen sgn half
      err := 0
      phase := .idle } := by
  rw [nextDraw_of_seeded hs, Engine.raw32_of_pending hp, State.drew, BitVec.add_zero]
  rfl

theorem nextDraw_raw32_of_absent (hs : s.seeded = true) (hp : s.engine.pending32 = none) :
    nextDraw Engine.raw32 sgn s = .next { s with
      engine := { s.engine.step.engine with pending32 := some (s.engine.step.value.extractLsb' 32 32) }
      stepCount := s.stepCount + 1
      result := widen sgn (s.engine.step.value.extractLsb' 0 32)
      err := 0
      phase := .idle } := by
  rw [nextDraw_of_seeded hs, Engine.raw32_of_absent hp]
  rfl

/-- Operands whose low bits are the least and the greatest value of the width. -/
theorem rangeDraw_of_fullBits {a b : BitVec w} (hw : 0 < w) (ha : readAs sgn a = rangeLo w sgn)
    (hb : readAs sgn b = rangeHi w sgn) (hopa : lowBits w s.opa = a) (hopb : lowBits w s.opb = b) :
    rangeDraw raw sgn s = nextDraw raw sgn s :=
  rangeDraw_full hw (by rw [State.rangeMin, hopa, ha]) (by rw [State.rangeMax, hopb, hb])

end Commands

theorem setWidth_extractLsb'_bit (x : Word) :
    (x.extractLsb' 0 1).setWidth 64 = if x.getLsbD 0 then 1 else (0 : Word) := by
  have hbit : x.extractLsb' 0 1 = BitVec.ofBool (x.getLsbD 0) := by
    ext i hi
    obtain rfl : i = 0 := by omega
    simp
  rw [hbit]
  cases x.getLsbD 0 <;> rfl

/-! ### The obligations on the caches -/

/-- Settles O30: the draw is `Raw_1`, whose one bit is 1 or 0. -/
theorem nextBoolCommand : Obligations.NextBoolCommand := by
  refine ⟨by decide, fun s hs => ?_, fun s hs => exec_isDraw_of_unseeded rfl hs, by decide⟩
  intro e full
  rw [← setWidth_extractLsb'_bit]
  exact nextDraw_of_refill hs rfl

/-- Settles O31: both draws are `Raw_8`, in their two readings. -/
theorem next8Commands : Obligations.Next8Commands :=
  ⟨by decide, by decide, fun _ hs => ⟨nextDraw_of_refill hs rfl, nextDraw_of_refill hs rfl⟩,
    fun _ => ⟨rangeDraw_of_fullBits (by decide) (by decide) (by decide),
      rangeDraw_of_fullBits (by decide) (by decide) (by decide)⟩,
    fun _ hs => ⟨exec_isDraw_of_unseeded rfl hs, exec_isDraw_of_unseeded rfl hs⟩, by decide, by decide⟩

/-- Settles O32: both draws are `Raw_16`, in their two readings. -/
theorem next16Commands : Obligations.Next16Commands :=
  ⟨by decide, by decide, fun _ hs => ⟨nextDraw_of_refill hs rfl, nextDraw_of_refill hs rfl⟩,
    fun _ => ⟨rangeDraw_of_fullBits (by decide) (by decide) (by decide),
      rangeDraw_of_fullBits (by decide) (by decide) (by decide)⟩,
    fun _ hs => ⟨exec_isDraw_of_unseeded rfl hs, exec_isDraw_of_unseeded rfl hs⟩, by decide, by decide⟩

/-- Settles O33: both draws are `Raw_32`, with a half pending and with none. -/
theorem next32Commands : Obligations.Next32Commands :=
  ⟨by decide, by decide, fun _ _ hs hp => ⟨nextDraw_raw32_of_pending hs hp, nextDraw_raw32_of_pending hs hp⟩,
    fun _ hs hp => ⟨nextDraw_raw32_of_absent hs hp, nextDraw_raw32_of_absent hs hp⟩,
    fun _ => ⟨rangeDraw_of_fullBits (by decide) (by decide) (by decide),
      rangeDraw_of_fullBits (by decide) (by decide) (by decide)⟩,
    fun _ hs => ⟨exec_isDraw_of_unseeded rfl hs, exec_isDraw_of_unseeded rfl hs⟩, by decide, by decide⟩

/-- Settles O34: every draw takes a unit of its own cache, and `Raw_64` takes none. -/
theorem cachesAreIndependent : Obligations.CachesAreIndependent := by
  have hleaves : ∀ (e : Engine) (c c' : Cache), c' ≠ c → sameCache c' (c.draw e).engine e :=
    fun e _ _ h => Cache.draw_sameCache_of_ne h e
  have hleft : ∀ (e : Engine) (c : Cache), c.unitsLeft e ≠ 0 → samePermutation (c.draw e).engine e :=
    fun _ _ h => (Cache.draw_of_left h).permutation
  refine ⟨fun e => ⟨?_, ?_, ?_, ?_, fun c => sameCache_raw64 c e⟩,
    fun e f hp => ⟨Cache.draw_alike (c := .bool) hp, Cache.draw_alike (c := .byte) hp,
      Cache.draw_alike (c := .word) hp, Cache.draw_alike (c := .half) hp, hp.output, hp.advance⟩,
    fun e => ⟨?_, ?_, ?_, ?_⟩⟩
  · exact ⟨hleaves e .bool .byte (by decide), hleaves e .bool .word (by decide), hleaves e .bool .half (by decide)⟩
  · exact ⟨hleaves e .byte .bool (by decide), hleaves e .byte .word (by decide), hleaves e .byte .half (by decide)⟩
  · exact ⟨hleaves e .word .bool (by decide), hleaves e .word .byte (by decide), hleaves e .word .half (by decide)⟩
  · exact ⟨hleaves e .half .bool (by decide), hleaves e .half .byte (by decide), hleaves e .half .word (by decide)⟩
  · exact fun h => hleft e .bool (Cache.unitsLeft_bool_eq_zero.not.mpr h)
  · exact fun h => hleft e .byte (Cache.unitsLeft_byte_eq_zero.not.mpr h)
  · exact fun h => hleft e .word (Cache.unitsLeft_word_eq_zero.not.mpr h)
  · exact fun h => hleft e .half (Cache.unitsLeft_half_eq_zero.not.mpr h)

/-- Settles O35: a full turn of a cache costs one engine step, and every step but the end of a RESTORE keeps the bits
above a counter 0. -/
theorem engineStepsPerDraw : Obligations.EngineStepsPerDraw := by
  refine ⟨fun e => ⟨rfl, rfl, rfl, e.raw32_steps, rfl⟩, fun e n => ⟨?_, ?_, ?_, ?_⟩,
    fun e => buffersFit.bits_eq_zero, fun s t h _ => exec_seed_buffersFit h, fun s t => step_buffersFit,
    fun e stale => ⟨fun h => ?_, fun h => ?_, fun h => ?_⟩⟩
  · exact fun h => Cache.drawSteps_units_mul n (Cache.unitsLeft_bool_eq_zero.mpr h)
  · exact fun h => Cache.drawSteps_units_mul n (Cache.unitsLeft_byte_eq_zero.mpr h)
  · exact fun h => Cache.drawSteps_units_mul n (Cache.unitsLeft_word_eq_zero.mpr h)
  · exact fun h => Cache.drawSteps_units_mul n (Cache.unitsLeft_half_eq_zero.mpr h)
  · rw [Engine.raw1_of_empty h]
    exact Engine.raw1_of_empty (e := { e with boolBits := stale }) h
  · rw [Engine.raw8_of_empty h]
    exact Engine.raw8_of_empty (e := { e with byteBits := stale }) h
  · rw [Engine.raw16_of_empty h]
    exact Engine.raw16_of_empty (e := { e with wordBits := stale }) h

end Sys2Proof.Machine

/-! PROOFS. What CAPTURE writes, what RESTORE loads, and the two one after the other (43_state_container.md). -/

namespace Sys2Proof.Machine

/-! ### The fields of `SNAP7` as numbers (R45, R231) -/

theorem extractLsb'_eq_ofNat {w : Nat} (v : Word) (k : Nat) : v.extractLsb' k w = BitVec.ofNat w (v.toNat / 2 ^ k) := by
  rw [← Nat.shiftRight_eq_div_pow]
  rfl

theorem extractLsb'_eq_iff {w : Nat} (v : Word) (k : Nat) (x : BitVec w) :
    v.extractLsb' k w = x ↔ v.toNat / 2 ^ k % 2 ^ w = x.toNat := by
  rw [← BitVec.toNat_inj, extractLsb'_eq_ofNat, BitVec.toNat_ofNat]

/-- The image of CAPTURE field by field (R230), `SNAP7` in the layout of R45 (`pack_snap7`). -/
theorem pack_eq (e : Engine) : pack e = {
    snap0 := e.s0, snap1 := e.s1, snap2 := e.s2, snap3 := e.s3
    snap4 := e.boolBits, snap5 := e.byteBits, snap6 := e.wordBits
    snap7 := e.p32Value ++ (0 : BitVec 7) ++ e.p32Valid ++ (0 : BitVec 5) ++ e.wordRem ++ (0 : BitVec 4)
      ++ e.byteRem ++ (0 : BitVec 1) ++ e.boolRem } := by
  rw [← pack_snap7]
  rfl

/-- The check of R231 on the permutation words is `SEEDED` of the EngineState they would load. -/
theorem Image.unpack_seeded_iff (m : Image) :
    m.unpack.seeded = true ↔ ¬(m.snap0 = 0 ∧ m.snap1 = 0 ∧ m.snap2 = 0 ∧ m.snap3 = 0) := by
  rw [← Bool.not_eq_false, Engine.seeded_eq_false_iff]
  rfl

/-- R231 in arithmetic: the fields of `SNAP7` are digits of its value. -/
theorem Image.valid_iff (m : Image) : m.valid = true ↔
    ¬(m.snap0 = 0 ∧ m.snap1 = 0 ∧ m.snap2 = 0 ∧ m.snap3 = 0)
      ∧ m.snap7.toNat % 128 ≤ 64 ∧ m.snap7.toNat / 2 ^ 8 % 16 ≤ 8 ∧ m.snap7.toNat / 2 ^ 16 % 8 ≤ 4
      ∧ m.snap7.toNat / 2 ^ 7 % 2 = 0 ∧ m.snap7.toNat / 2 ^ 12 % 16 = 0 ∧ m.snap7.toNat / 2 ^ 19 % 32 = 0
      ∧ m.snap7.toNat / 2 ^ 25 % 128 = 0 := by
  rw [← m.unpack_seeded_iff]
  simp only [Image.valid, Bool.and_eq_true, decide_eq_true_eq, beq_iff_eq, and_assoc, extractLsb'_eq_iff]
  simp only [extractLsb'_eq_ofNat, BitVec.toNat_ofNat, pow_zero, Nat.div_one]
  rfl

/-- R233: the counters RESTORE loads are the same digits; bit 24 says whether a pending value is loaded. -/
theorem Image.unpack_eq (m : Image) : m.unpack = {
    s0 := m.snap0, s1 := m.snap1, s2 := m.snap2, s3 := m.snap3
    boolRem := BitVec.ofNat 7 m.snap7.toNat, boolBits := m.snap4
    byteRem := BitVec.ofNat 4 (m.snap7.toNat / 2 ^ 8), byteBits := m.snap5
    wordRem := BitVec.ofNat 3 (m.snap7.toNat / 2 ^ 16), wordBits := m.snap6
    pending32 :=
      if m.snap7.toNat / 2 ^ 24 % 2 = 1 then some (BitVec.ofNat 32 (m.snap7.toNat / 2 ^ 32)) else none } := by
  simp only [Image.unpack, extractLsb'_eq_iff]
  simp only [extractLsb'_eq_ofNat, pow_zero, Nat.div_one]
  rfl

/-! ### The obligations on CAPTURE and RESTORE -/

/-- Settles O48: CAPTURE writes `pack` of the EngineState, whose layout is `pack_eq`. -/
theorem captureCommand : Obligations.CaptureCommand := by
  refine ⟨rfl, fun s hs => ?_, fun s => exec_capture_of_unseeded, ?_⟩
  · rw [exec_capture_of_seeded hs, pack_eq]
    rfl
  · decide

/-- Settles O49: an image passes the check of RESTORE exactly when it meets the arithmetic of R231. -/
theorem restoreCommand : Obligations.RestoreCommand := by
  have hinvalid : ∀ s : State, s.snap.valid ≠ true → exec .restore s = .next { s with err := 3, phase := .idle } :=
    fun s h => exec_restore_of_invalid (Bool.eq_false_iff.mpr h)
  refine ⟨rfl, fun s => ⟨fun hok => ?_, fun hbad => ?_⟩, ?_, fun s h0 h1 h2 h3 => ?_⟩
  · rw [exec_restore_of_valid (s.snap.valid_iff.mpr hok), Image.unpack_eq]
    rfl
  · exact hinvalid s (mt s.snap.valid_iff.mp hbad)
  · decide
  · exact hinvalid s (mt s.snap.valid_iff.mp fun ⟨hwords, _⟩ => hwords ⟨h0, h1, h2, h3⟩)

/-- Settles O50: the captured image is valid and unpacks to the EngineState it was packed from, which alone decides
later answers. -/
theorem captureRestoreRoundTrip : Obligations.CaptureRestoreRoundTrip := by
  intro s hs hc
  have hv : (pack s.engine).valid = true := pack_valid hs hc
  have hengine : (pack s.engine).unpack = s.engine := unpack_pack s.engine
  exact ⟨hv, _, _, exec_capture_of_seeded hs, rfl, exec_restore_of_valid hv, rfl, hengine, rfl, rfl,
    fun calls => answers_congr calls hengine⟩

end Sys2Proof.Machine

/-! PROOFS. What a command that fails writes, which code each command reports, and which steps a host's access stops
(60_exceptions.md). -/

namespace Sys2Proof.Machine

/-! ### A command that ends with an error (R263) -/

theorem State.raise_eq (s : State) (e : ErrorKind) : s.raise e = { s with err := e.code, phase := .idle } := rfl

/-- Of all that a command can do, only raising an error ends it with `ERR` not 0. -/
theorem commandEffect.raises {i : Instr} {s t : State} (h : commandEffect i s t) (hidle : t.phase = .idle)
    (herr : t.err ≠ 0) : ∃ e, t = s.raise e := by
  rcases h with hraise | ⟨-, rfl⟩ | ⟨-, rfl⟩ | ⟨-, -, rfl⟩ | ⟨-, -, rfl⟩ | ⟨-, -, rfl⟩ | ⟨-, -, _, _, _, rfl⟩
  · exact hraise
  · cases hidle
  all_goals exact absurd rfl herr

/-! ### The first check that fails (R265) -/

theorem needsSeed_of_rangeForm {i : Instr} {form : Nat × Bool} (h : rangeForm i = some form) : needsSeed i = true := by
  simp [needsSeed, isDraw, isRange, h]

theorem exec_needsSeed_of_unseeded {i : Instr} {s : State} (hneeds : needsSeed i = true) (hs : s.seeded = false) :
    exec i s = .next (s.raise .notSeeded) := by
  rcases Bool.or_eq_true_iff.mp hneeds with hdraw | hcapture
  · exact exec_isDraw_of_unseeded hdraw hs
  · obtain rfl := beq_iff_eq.mp hcapture
    exact exec_capture_of_unseeded hs

section Codes

variable {i : Instr} {s t : State} {w : Nat} {raw : Engine → Draw w} {sgn : Bool}

theorem bounded_eq_invalidRange_iff {min max : Int} {e : Engine} :
    bounded raw sgn min max e = .invalidRange ↔ max < min := by
  refine ⟨fun h => ?_, bounded_of_gt⟩
  rcases bounded_cases raw sgn min max e with
    ⟨-, hb⟩ | ⟨-, -, hb⟩ | ⟨-, -, hlt, -⟩ | ⟨-, -, -, hb⟩ | ⟨-, -, _, -, hb⟩
  case inr.inr.inl => exact hlt
  all_goals cases hb.symm.trans h

theorem rangeDraw_err (hs : s.seeded = true) (h : rangeDraw raw sgn s = .next t) (hidle : t.phase = .idle) :
    t.err = if s.rangeMax w sgn < s.rangeMin w sgn then 2 else 0 := by
  rcases rangeDraw_cases raw sgn s with ⟨hs', -⟩ | ⟨-, hb, hr⟩ | ⟨-, -, hr⟩ | ⟨-, _, _, _, hb, hr⟩
  · cases hs'.symm.trans hs
  · obtain rfl := Host.Outcome.next.inj (h.symm.trans hr)
    exact (if_pos (bounded_eq_invalidRange_iff.mp hb)).symm
  · obtain rfl := Host.Outcome.next.inj (h.symm.trans hr)
    cases hidle
  · obtain rfl := Host.Outcome.next.inj (h.symm.trans hr)
    refine (if_neg fun hlt => ?_).symm
    cases hb.symm.trans (bounded_of_gt hlt)

theorem nextDraw_err (hs : s.seeded = true) (h : nextDraw raw sgn s = .next t) : t.err = 0 := by
  obtain rfl := Host.Outcome.next.inj (h.symm.trans (nextDraw_of_seeded hs))
  rfl

theorem exec_restore_err (h : exec .restore s = .next t) : t.err = if s.snap.valid = false then 3 else 0 := by
  cases hv : s.snap.valid with
  | true =>
    obtain rfl := Host.Outcome.next.inj (h.symm.trans (exec_restore_of_valid hv))
    rfl
  | false =>
    obtain rfl := Host.Outcome.next.inj (h.symm.trans (exec_restore_of_invalid hv))
    rfl

/-- Past the check of `SEEDED`, only a RANGE and a RESTORE have another check to fail. -/
theorem exec_succeeds (hform : rangeForm i = none) (hrestore : i ≠ .restore)
    (hs : needsSeed i = true → s.seeded = true) (h : exec i s = .next t) : t.err = 0 := by
  cases i
  case nop =>
    obtain rfl := Host.Outcome.next.inj h
    rfl
  case seed =>
    obtain rfl := Host.Outcome.next.inj (h.symm.trans (exec_seed s))
    rfl
  case capture =>
    obtain rfl := Host.Outcome.next.inj (h.symm.trans (exec_capture_of_seeded (hs rfl)))
    rfl
  case restore => exact absurd rfl hrestore
  case nextB | nextU8 | nextS8 | nextU16 | nextS16 | nextU32 | nextS32 | nextU64 | nextS64 =>
    exact nextDraw_err (hs rfl) h
  all_goals cases hform

theorem exec_err_of_rangeForm_none (hform : rangeForm i = none) (hs : needsSeed i = true → s.seeded = true)
    (h : exec i s = .next t) : t.err = if i = .restore ∧ s.snap.valid = false then 3 else 0 := by
  by_cases hrestore : i = .restore
  · subst hrestore
    simpa using exec_restore_err h
  · rw [exec_succeeds hform hrestore hs h, if_neg fun hr => hrestore hr.1]

end Codes

/-! ### What a step can answer (R267, R85, R298) -/

/-- A next state, or the refusal of a host access that the spec leaves undefined. -/
def stopsOnlyAtAccess (o : Host.Outcome State Fault Refusal) : Prop :=
  (∃ t, o = .next t) ∨ o = .refused .outsideWindow ∨ o = .refused .accessWidth ∨ o = .refused .misaligned
    ∨ o = .refused .secondHost

theorem hostAccess_stopsOnlyAtAccess (s : State) (agent addr size : Nat) (effect : State → Reg → State) :
    stopsOnlyAtAccess (hostAccess s agent addr size effect) := by
  rcases s.claim_cases agent with ⟨howner, -⟩ | hclaim
  · have houtcome := hostAccess_outcome (addr := addr) (size := size) howner effect
    split_ifs at houtcome
    · exact .inr (.inl houtcome)
    · exact .inr (.inr (.inl houtcome))
    · exact .inr (.inr (.inr (.inl houtcome)))
    · exact .inl houtcome
  · have hrefused : hostAccess s agent addr size effect = .refused .secondHost := by rw [hostAccess, hclaim]
    exact .inr (.inr (.inr (.inr hrefused)))

theorem hostTurn_stopsOnlyAtAccess (s : State) : stopsOnlyAtAccess (hostTurn s) := by
  unfold hostTurn
  cases s.host with
  | nil => exact .inl ⟨_, rfl⟩
  | cons event rest =>
    cases event with
    | write agent addr size v => exact hostAccess_stopsOnlyAtAccess _ _ _ _ _
    | read agent addr size => exact hostAccess_stopsOnlyAtAccess _ _ _ _ _
    | wait agent => exact hostAccess_stopsOnlyAtAccess _ _ _ _ _
    | reset => exact .inl ⟨_, rfl⟩

theorem exec_next (i : Instr) (s : State) : ∃ t, exec i s = .next t := by
  obtain ⟨t, h, -⟩ := exec_effect i s
  exact ⟨t, h⟩

theorem step_of_due_next {s : State} (hdue : s.phase = .running 0) : ∃ t, step s = .next t := by
  by_cases hlegal : ∃ i, decode s.cmd = .ok i
  · obtain ⟨i, hdecode⟩ := hlegal
    rw [stepRunsDecodedCommand s i hdue hdecode]
    exact exec_next i s
  · exact ⟨_, step_of_due_illegal hdue hlegal⟩

/-! ### The obligations on errors -/

/-- Settles O53: raising an error is the only effect of a command that leaves `ERR` not 0. -/
theorem failedCommandChangesOnlyErr : Obligations.FailedCommandChangesOnlyErr := by
  refine ⟨State.raise_eq, fun i s t h hidle herr => ?_⟩
  obtain ⟨t', h', heffect⟩ := exec_effect i s
  obtain rfl : t' = t := Host.Outcome.next.inj (h'.symm.trans h)
  obtain ⟨e, rfl⟩ := heffect.raises hidle herr
  exact s.raise_eq e

/-- Settles O55, check by check in the order of R265; the check of SEED cannot fail (R147). -/
theorem errorCausesInOrder : Obligations.ErrorCausesInOrder := by
  intro s t hdue h hidle
  rcases step_due_effect hdue h with ⟨i, hdecode, hexec, -⟩ | ⟨⟨e, hdecode⟩, rfl⟩ <;> simp only [hdecode]
  · by_cases hunseeded : needsSeed i = true ∧ s.seeded = false
    · rw [if_pos hunseeded]
      obtain ⟨hneeds, hs⟩ := hunseeded
      obtain rfl := Host.Outcome.next.inj (hexec.symm.trans (exec_needsSeed_of_unseeded hneeds hs))
      rfl
    · rw [if_neg hunseeded]
      have hs : needsSeed i = true → s.seeded = true := by simpa using hunseeded
      cases hform : rangeForm i with
      | some form =>
        obtain ⟨w, sgn⟩ := form
        obtain ⟨raw, -, hraw⟩ := exec_of_rangeForm hform
        exact rangeDraw_err (hs (needsSeed_of_rangeForm hform)) (hraw ▸ hexec) hidle
      | none =>
        simp only [seedExpand_seeded, Bool.true_eq_false, and_false, if_false]
        exact exec_err_of_rangeForm_none hform hs hexec
  · rfl

/-- Settles O60: a command that is due ends, and of the host's events only an access can be refused. -/
theorem onlyHostAccessesStop : Obligations.OnlyHostAccessesStop := by
  refine ⟨exec_next, fun _ => step_of_due_next, fun s => ?_⟩
  by_cases hdue : s.phase = .running 0
  · exact .inl (step_of_due_next hdue)
  · rw [step_of_not_due hdue]
    exact hostTurn_stopsOnlyAtAccess s

end Sys2Proof.Machine

/-! PROOFS. Runs of steps, accesses while busy, the second host agent, reset, and the RANGE that never ends
(70_reset_and_hazards.md). -/

namespace Sys2Proof.Machine

/-! ### The redraw loop that never ends (R300) -/

section Redraw

variable {w range : Nat} {raw : Engine → Draw w} {e : Engine}

/-- No amount of fuel ends the loop when every raw draw is redrawn. -/
theorem redraw_of_all_redrawn (hall : ∀ k, redraws range (drawAt raw k e).value) (fuel : Nat) (steps : Nat) :
    redraw raw range (threshold w range) fuel { raw e with steps := steps } = none := by
  induction fuel generalizing e steps with
  | zero => rfl
  | succ fuel ih => exact (redraw_succ ..).trans ((if_pos (hall 0)).trans (ih (fun k => hall (k + 1)) _))

theorem lemire_of_all_redrawn (hrange : 0 < range) (hall : ∀ k, redraws range (drawAt raw k e).value) :
    lemire raw range e = none := by
  have hfirst : lowPart range (raw e).value < range := (hall 0).trans (Nat.mod_lt _ hrange)
  simp only [lemire, if_pos hfirst, redraw_of_all_redrawn hall engineCount (raw e).steps, Option.map_none]

/-- If some raw draw is accepted, then there is a first one, and `Lemire_W` ends at it. -/
theorem lemire_eq_none_iff (hrange : 0 < range) :
    lemire raw range e = none ↔ ∀ k, redraws range (drawAt raw k e).value := by
  refine ⟨fun hnone => ?_, lemire_of_all_redrawn hrange⟩
  by_contra hsome
  classical
  have haccepted : ∃ k, ¬redraws range (drawAt raw k e).value := not_forall.mp hsome
  have hfirst := lemire_of_first_accepted hrange
    (fun j hj => not_not.mp (Nat.find_min haccepted hj)) (Nat.find_spec haccepted)
  cases hnone.symm.trans hfirst

end Redraw

/-! ### The RANGE command that hangs (R300, I13) -/

section Range

variable {i : Instr} {w : Nat} {raw : Engine → Draw w} {sgn : Bool} {s : State}

theorem bounded_eq_neverEnds {min max : Int} {e : Engine} (h : bounded raw sgn min max e = .neverEnds) :
    min < max ∧ ¬(min = rangeLo w sgn ∧ max = rangeHi w sgn) ∧ lemire raw (max - min + 1).toNat e = none := by
  rcases bounded_cases raw sgn min max e with
    ⟨-, hb⟩ | ⟨-, -, hb⟩ | ⟨-, -, -, hb⟩ | ⟨hlt, hfull, hlemire, -⟩ | ⟨-, -, _, -, hb⟩
  case inr.inr.inr.inl => exact ⟨hlt, hfull, hlemire⟩
  all_goals cases hb.symm.trans h

/-- A RANGE hangs only because its sampler has no value: it ends idle in every other case. -/
theorem rangeDraw_eq_hang_iff : rangeDraw raw sgn s = .next s.hang ↔
    s.seeded = true ∧ onPathFour w sgn s ∧ lemire raw (s.rangeSize w sgn) s.engine = none := by
  refine ⟨fun h => ?_, fun ⟨hs, hpath, hlemire⟩ => rangeDraw_pathFour_hangs hs hpath hlemire⟩
  rcases rangeDraw_cases raw sgn s with ⟨-, hr⟩ | ⟨-, -, hr⟩ | ⟨hs, hb, -⟩ | ⟨-, _, _, _, -, hr⟩
  case inr.inr.inl =>
    obtain ⟨hlt, hfull, hlemire⟩ := bounded_eq_neverEnds hb
    exact ⟨hs, ⟨hlt, hfull⟩, hlemire⟩
  all_goals cases congrArg State.phase (Host.Outcome.next.inj (hr.symm.trans h))

theorem rangeHangs_of_exec (hexec : exec i = rangeDraw raw sgn) : rangeHangs i raw sgn := by
  intro s
  rw [hexec]
  refine rangeDraw_eq_hang_iff.trans (and_congr_right fun _ => and_assoc.trans ?_)
  refine and_congr_right fun hlt => and_congr_right fun _ => lemire_eq_none_iff ?_
  rw [State.rangeSize]
  omega

end Range

/-! ### Runs of steps -/

section Run

variable {s t : State} {n : Nat}

theorem run_one (s : State) : core.run 1 s = step s := by
  have hstep : core.step s = step s := rfl
  simp only [Host.Core.run, hstep]
  cases step s <;> rfl

/-- What every step keeps, every run keeps. -/
theorem run_keeps {P : State → Prop} (hstep : ∀ {s t : State}, P s → step s = .next t → P t) (hs : P s)
    (h : core.run n s = .next t) : P t := by
  induction n generalizing s with
  | zero => exact Host.Outcome.next.inj h ▸ hs
  | succ n ih =>
    cases hfirst : step s with
    | next u => exact ih (hstep hs hfirst) ((run_next n hfirst).symm.trans h)
    | fault r => cases r
    | refused r =>
      have hcore : core.step s = .refused r := hfirst
      simp only [Host.Core.run, hcore] at h
      cases h

/-! ### Time passing (R291, R294) -/

theorem step_of_no_events (hdue : s.phase ≠ .running 0) (hhost : s.host = []) : step s = .next s.passEvent := by
  rw [step_of_not_due hdue, hostTurn, hhost]

/-- With no event to come, n steps pass the n events left of a command, and the run goes on with the command due. -/
theorem run_of_running (hphase : s.phase = .running n) (hhost : s.host = []) (m : Nat) :
    core.run (m + n) s = core.run m { s with phase := .running 0 } := by
  induction n generalizing s with
  | zero => rw [← hphase]; rfl
  | succ n ih =>
    have hdue : s.phase ≠ .running 0 := by simp [hphase]
    have hstep := step_of_no_events hdue hhost
    rw [State.passEvent_running hphase] at hstep
    exact (run_next (m + n) hstep).trans (ih (s := { s with phase := .running n }) rfl hhost)

end Run

/-! ### Accesses while busy (R296, R297) -/

section Busy

variable {s : State} {rest : List HostEvent} {agent : Nat} {r : Reg} {v : Word}

theorem State.busy_of_hung (hhung : s.phase = .hung) : s.busy = true := congrArg Phase.busy hhung

theorem State.hostWrite_of_busy (hbusy : s.busy = true) : s.hostWrite v r = s.overrun := if_pos hbusy

theorem State.hostRead_of_busy (hbusy : s.busy = true) : s.hostRead r =
    if r = .status then { s with lastRead := some s.status }
    else if r = .reserved30 ∨ r = .reserved38 then { s with lastRead := some 0 }
    else { s with lastRead := some (Config.busyRead s.freeIndex), freeIndex := s.freeIndex + 1 } := by
  cases r <;> simp [State.hostRead, hbusy, Reg.freeWhileBusy, State.readReg]

theorem State.takeAccess_status : (s.takeAccess agent rest).status = s.status := rfl

end Busy

/-! ### The second host agent (R298) -/

section Owner

variable {s t : State} {first agent : Nat}

theorem hostAccess_of_second_host {addr size : Nat} {effect : State → Reg → State} (howner : s.owner = some first)
    (hne : agent ≠ first) : hostAccess s agent addr size effect = .refused .secondHost := by
  rw [hostAccess, State.claim_error howner hne]

theorem commandEffect.owner {i : Instr} (h : commandEffect i s t) : t.owner = s.owner := by
  rcases h with ⟨e, rfl⟩ | ⟨-, rfl⟩ | ⟨-, rfl⟩ | ⟨-, -, rfl⟩ | ⟨-, -, rfl⟩ | ⟨-, -, rfl⟩ | ⟨-, -, _, _, _, rfl⟩ <;> rfl

/-- An agent that may access is the host there is. -/
theorem agent_eq_owner (howner : s.owner = some first) (h : s.owner = none ∨ s.owner = some agent) :
    some agent = some first := by
  rcases h with h | h
  · cases h.symm.trans howner
  · exact h.symm.trans howner

theorem hostTurn_keeps_owner (howner : s.owner = some first) (h : hostTurn s = .next t) : t.owner = some first := by
  rcases hostTurn_next h with ⟨-, rfl⟩ | ⟨agent, r, v, rest, -, ho, rfl⟩ | ⟨agent, r, rest, -, ho, rfl⟩
    | ⟨agent, rest, -, ho, rfl⟩ | ⟨rest, -, rfl⟩
  · rw [s.passEvent_eq.1]; exact howner
  · rw [State.hostWrite_frame, (State.passEvent_eq _).1]; exact agent_eq_owner howner ho
  · rw [State.hostRead_frame, (State.passEvent_eq _).1]; exact agent_eq_owner howner ho
  · rw [State.hostRead_frame, (State.passEvent_eq _).1]; exact agent_eq_owner howner ho
  · exact howner

theorem step_keeps_owner (howner : s.owner = some first) (h : step s = .next t) : t.owner = some first := by
  by_cases hdue : s.phase = .running 0
  · rcases step_due_effect hdue h with ⟨i, -, -, heffect⟩ | ⟨-, rfl⟩
    · exact heffect.owner.trans howner
    · exact howner
  · exact hostTurn_keeps_owner howner (step_of_not_due hdue ▸ h)

end Owner

/-! ### A hung block (I13) -/

/-- The block hangs, with no reset to come, and holds the registers that u holds. -/
def State.hangsLike (s u : State) : Prop :=
  s.phase = .hung ∧ .reset ∉ s.host
    ∧ s.engine = u.engine ∧ s.cmd = u.cmd ∧ s.err = u.err ∧ s.result = u.result

section Hang

variable {s t u : State}

/-- A host event other than a reset leaves a hung block hung, in the same command, and brings no reset. -/
theorem hostTurn_of_hung (hhung : s.phase = .hung) (hreset : .reset ∉ s.host) (h : hostTurn s = .next t) :
    t.phase = .hung ∧ .reset ∉ t.host ∧ t.cmd = s.cmd := by
  have hpass : ∀ rest agent, ({ s with host := rest, owner := some agent } : State).passEvent
      = { s with host := rest, owner := some agent } := fun _ _ => State.passEvent_hung hhung
  rcases hostTurn_next h with ⟨-, rfl⟩ | ⟨agent, r, v, rest, hh, -, rfl⟩ | ⟨agent, r, rest, hh, -, rfl⟩
    | ⟨agent, rest, hh, -, rfl⟩ | ⟨rest, hh, -⟩
  · rw [State.passEvent_hung hhung]
    exact ⟨hhung, hreset, rfl⟩
  · rw [hpass, State.hostWrite_of_busy (State.busy_of_hung (s := { s with host := rest, owner := some agent }) hhung)]
    exact ⟨hhung, fun hmem => hreset (hh ▸ .tail _ hmem), rfl⟩
  · rw [hpass, State.hostRead_frame]
    exact ⟨hhung, fun hmem => hreset (hh ▸ .tail _ hmem), rfl⟩
  · rw [hpass, State.hostRead_frame, if_pos (State.busy_of_hung hhung)]
    exact ⟨hhung, hreset, rfl⟩
  · exact absurd (hh ▸ .head rest) hreset

theorem step_keeps_hang (hs : s.hangsLike u) (h : step s = .next t) : t.hangsLike u := by
  obtain ⟨hhung, hreset, hengine, hcmd, herr, hresult⟩ := hs
  have hnone : ∀ rest, s.host ≠ .reset :: rest := fun rest hh => hreset (hh ▸ .head rest)
  rw [step_of_not_due (by simp [hhung])] at h
  obtain ⟨hhung', hreset', hcmd'⟩ := hostTurn_of_hung hhung hreset h
  obtain ⟨-, herr', hresult'⟩ := hostTurn_keeps hnone h
  exact ⟨hhung', hreset', (hostTurn_engine hnone h).trans hengine, hcmd'.trans hcmd, herr'.trans herr,
    hresult'.trans hresult⟩

end Hang

/-! ### The obligations on reset and hazards -/

/-- Settles O42: a sampler that ends, ends at the first accepted draw, and a RANGE hangs only for want of a value. -/
theorem rangeHangsIffEveryDrawIsRedrawn : Obligations.RangeHangsIffEveryDrawIsRedrawn :=
  ⟨fun _ _ _ _ htwo _ => lemire_eq_none_iff (Nat.zero_lt_of_lt htwo),
    rangeHangs_of_exec rfl, rangeHangs_of_exec rfl, rangeHangs_of_exec rfl, rangeHangs_of_exec rfl,
    rangeHangs_of_exec rfl, rangeHangs_of_exec rfl, rangeHangs_of_exec rfl, rangeHangs_of_exec rfl⟩

/-- Settles O7: without events a step only lets time pass, so n of them make the command due. -/
theorem stepsWithoutHostEvents : Obligations.StepsWithoutHostEvents := by
  refine ⟨fun s hphase hhost => ?_, fun n s i hphase hhost hdecode => ⟨?_, ?_⟩⟩
  · rcases hphase with hidle | hhung
    · rw [step_of_no_events (by simp [hidle]) hhost, State.passEvent_idle hidle]
    · rw [step_of_no_events (by simp [hhung]) hhost, State.passEvent_hung hhung]
  · rw [← Nat.zero_add n, run_of_running hphase hhost]
    rfl
  · rw [Nat.add_comm n, run_of_running hphase hhost, run_one]
    exact stepRunsDecodedCommand _ i rfl hdecode

/-- Settles O11: another agent cannot claim the block, and a step keeps its host. -/
theorem secondHostIsRefused : Obligations.SecondHostIsRefused := by
  refine ⟨fun s first agent addr size v rest hdue howner hne hhost => ?_, fun _ _ _ => step_keeps_owner⟩
  rcases hhost with hwrite | hread | hwait
  · rw [step_of_write hdue hwrite]
    exact hostAccess_of_second_host howner hne
  · rw [step_of_read hdue hread]
    exact hostAccess_of_second_host howner hne
  · rw [step_of_not_due hdue, hostTurn, hwait]
    exact hostAccess_of_second_host howner hne

/-- Settles O14, by the phase: a write while busy is an overrun, after its event has passed. -/
theorem writeWhileBusyIsDropped : Obligations.WriteWhileBusyIsDropped := by
  intro s rest agent r v hhost howner
  refine ⟨fun n hrunning => ?_, fun hhung => ?_⟩
  · rw [step_of_slot_write (by simp [hrunning]) hhost howner,
      State.passEvent_running (State.takeAccess_phase.trans hrunning), State.hostWrite_of_busy rfl]
    rfl
  · rw [step_of_slot_write (by simp [hhung]) hhost howner,
      State.passEvent_hung (State.takeAccess_phase.trans hhung),
      State.hostWrite_of_busy (State.busy_of_hung (State.takeAccess_phase.trans hhung))]
    rfl

/-- Settles O15: the read happens when its event has passed, which leaves the block busy and `STATUS` as it was. -/
theorem readWhileBusy : Obligations.ReadWhileBusy := by
  intro s rest agent r hbusy hdue hhost howner u
  have hpass : (s.takeAccess agent rest).passEvent = u := by
    cases hphase : s.phase with
    | idle => simp [State.busy, hphase, Phase.busy] at hbusy
    | hung =>
      rw [State.passEvent_hung (State.takeAccess_phase.trans hphase)]
      simp only [u, hphase, State.takeAccess]
    | running n =>
      cases n with
      | zero => exact absurd hphase hdue
      | succ n =>
        rw [State.passEvent_running (State.takeAccess_phase.trans hphase)]
        simp only [u, hphase, State.takeAccess]
  have hstatus : u.status = s.status := by rw [← hpass, State.passEvent_status, State.takeAccess_status]
  have hbusy' : u.busy = true := by rw [← hpass, (State.passEvent_eq _).2]; exact hbusy
  rw [step_of_slot_read hdue hhost howner, hpass, State.hostRead_of_busy hbusy', hstatus]

/-- Settles O21: the event is `State.resetBlock`, and `STATUS` shows registers of the block only. -/
theorem resetAbandonsEverything : Obligations.ResetAbandonsEverything := by
  intro s rest hdue hhost
  refine ⟨({ s with host := rest } : State).resetBlock, ?_, rfl, ?_⟩
  · rw [step_of_not_due hdue, hostTurn, hhost]
  · have hstatus : (({ s with host := rest } : State).resetBlock).status = State.reset.status := rfl
    rw [hstatus]
    decide

/-- Settles O22: every step keeps a hang to which no reset comes. -/
theorem onlyResetEndsAHang : Obligations.OnlyResetEndsAHang := by
  intro k s t hhung hreset h
  have hs : s.hangsLike s := ⟨hhung, hreset, rfl, rfl, rfl, rfl⟩
  obtain ⟨hhung', -, hregs⟩ := run_keeps step_keeps_hang hs h
  exact ⟨hhung', State.busy_of_hung hhung', hregs⟩

end Sys2Proof.Machine

/-! PROOFS. The frame of the commands and of the host's accesses, the codes of each command, SEED on every state, and the
invariant of a run (10_state.md, 40_engine.md R147, 60_exceptions.md R262). -/

namespace Sys2Proof.Machine

theorem commandEffect_of_exec {i : Instr} {s t : State} (h : exec i s = .next t) : commandEffect i s t := by
  obtain ⟨t', h', heffect⟩ := exec_effect i s
  obtain rfl := Host.Outcome.next.inj (h'.symm.trans h)
  exact heffect

/-! ### The invariant of a run: the counters (R30) -/

section Counters

variable {c : Cache} {e : Engine} {i : Instr} {s t : State}

/-- The counters are in range exactly when no cache holds more units than a refill grants. -/
theorem countersOk_iff : countersOk e ↔ ∀ c : Cache, c.unitsLeft e ≤ c.units := by
  refine ⟨fun ⟨hbool, hbyte, hword⟩ c => ?_, fun h => ⟨h .bool, h .byte, h .word⟩⟩
  cases c with
  | bool => exact hbool
  | byte => exact hbyte
  | word => exact hword
  | half =>
    rw [Cache.unitsLeft]
    split <;> decide

theorem Cache.draw_unitsLeft_le (h : c.unitsLeft e ≤ c.units) : c.unitsLeft (c.draw e).engine ≤ c.units := by
  by_cases hempty : c.unitsLeft e = 0
  · rw [(Cache.draw_of_empty hempty).unitsLeft]
    exact Nat.sub_le _ _
  · rw [(Cache.draw_of_left hempty).unitsLeft]
    exact (Nat.sub_le _ _).trans h

theorem Cache.draw_countersOk (h : countersOk e) : countersOk (c.draw e).engine := by
  rw [countersOk_iff] at h ⊢
  intro c'
  by_cases hc : c' = c
  · subst hc
    exact Cache.draw_unitsLeft_le (h c')
  · obtain ⟨hleft, -⟩ := sameCache_iff.mp (Cache.draw_sameCache_of_ne hc e)
    exact hleft.trans_le (h c')

theorem IsRawDraw.countersOk {w : Nat} {raw : Engine → Draw w} (h : IsRawDraw raw) (he : countersOk e) :
    countersOk (raw e).engine := by
  cases h with
  | raw1 => exact Cache.draw_countersOk (c := .bool) he
  | raw8 => exact Cache.draw_countersOk (c := .byte) he
  | raw16 => exact Cache.draw_countersOk (c := .word) he
  | raw32 => exact Cache.draw_countersOk (c := .half) he
  | raw64 => exact he

theorem countersOk_reset : countersOk Engine.reset := by
  unfold countersOk
  decide

theorem countersOk_seedExpand (seed : Word) : countersOk (seedExpand seed) := countersOk_reset

/-- RESTORE checks the counters it loads (R231). -/
theorem Image.unpack_countersOk {m : Image} (h : m.valid = true) : countersOk m.unpack := by
  simp only [Image.valid, Bool.and_eq_true, decide_eq_true_eq, and_assoc] at h
  obtain ⟨-, hbool, hbyte, hword, -⟩ := h
  exact ⟨hbool, hbyte, hword⟩

theorem exec_countersOk (hs : countersOk s.engine) (h : exec i s = .next t) : countersOk t.engine := by
  rcases commandEffect_of_exec h with ⟨e, rfl⟩ | ⟨-, rfl⟩ | ⟨-, rfl⟩ | ⟨-, -, rfl⟩ | ⟨-, -, rfl⟩ | ⟨-, hv, rfl⟩
    | ⟨hd, -⟩
  · exact hs
  · exact hs
  · exact hs
  · exact countersOk_seedExpand s.opa
  · exact hs
  · exact Image.unpack_countersOk hv
  · exact exec_isDraw_keeps (fun hr _ he => hr.countersOk he) hd hs h

end Counters

/-! ### The invariant of a run: the EngineState of an unseeded block, `ERR`, a hang (R49, I7, I13) -/

section Command

variable {i : Instr} {s t : State}

/-- A command leaves the block unseeded only by leaving the EngineState as it was. -/
theorem exec_unseeded (h : exec i s = .next t) (ht : t.seeded = false) : s.seeded = false ∧ t.engine = s.engine := by
  have hs : s.seeded = false := Bool.eq_false_iff.mpr fun hseeded => by
    cases ht.symm.trans (exec_keeps_seeded hseeded h)
  refine ⟨hs, ?_⟩
  rcases commandEffect_of_exec h with ⟨e, rfl⟩ | ⟨-, rfl⟩ | ⟨-, rfl⟩ | ⟨-, hexp, rfl⟩ | ⟨-, -, rfl⟩ | ⟨-, hv, rfl⟩
    | ⟨-, hseeded, -⟩
  · rfl
  · rfl
  · rfl
  · cases ht.symm.trans hexp
  · rfl
  · cases ht.symm.trans (Image.unpack_seeded hv)
  · cases hs.symm.trans hseeded

theorem ErrorKind.code_le (e : ErrorKind) : e.code.toNat ≤ 5 := by cases e <;> decide

theorem commandEffect.err_le (h : commandEffect i s t) (hs : s.err.toNat ≤ 5) : t.err.toNat ≤ 5 := by
  have hzero : (0 : BitVec 4).toNat ≤ 5 := by decide
  rcases h with ⟨e, rfl⟩ | ⟨-, rfl⟩ | ⟨-, rfl⟩ | ⟨-, -, rfl⟩ | ⟨-, -, rfl⟩ | ⟨-, -, rfl⟩ | ⟨-, -, _, _, _, rfl⟩
  · exact e.code_le
  · exact hs
  all_goals exact hzero

/-- A command ends, or it is a RANGE that hangs. -/
theorem commandEffect.ends (h : commandEffect i s t) : t.phase = .idle ∨ (isRange i = true ∧ t = s.hang) := by
  rcases h with ⟨e, rfl⟩ | hhang | ⟨-, rfl⟩ | ⟨-, -, rfl⟩ | ⟨-, -, rfl⟩ | ⟨-, -, rfl⟩ | ⟨-, -, _, _, _, rfl⟩
  case inr.inl => exact .inr hhang
  all_goals exact .inl rfl

theorem needsSeed_of_isRange (h : isRange i = true) : needsSeed i = true := by simp [needsSeed, isDraw, h]

theorem exec_hangs (h : exec i s = .next t) (hhung : t.phase = .hung) :
    isRange i = true ∧ s.seeded = true ∧ t = s.hang := by
  rcases (commandEffect_of_exec h).ends with hidle | ⟨hrange, hhang⟩
  · cases hidle.symm.trans hhung
  · refine ⟨hrange, ?_, hhang⟩
    by_contra hs
    rw [exec_needsSeed_of_unseeded (needsSeed_of_isRange hrange) (Bool.eq_false_iff.mpr hs)] at h
    cases Host.Outcome.next.inj h
    cases hhung

theorem exec_keeps_invariant (hs : invariant s) (hdecode : decode s.cmd = .ok i) (h : exec i s = .next t) :
    invariant t := by
  obtain ⟨hcounters, hunseeded, herr, -⟩ := hs
  refine ⟨exec_countersOk hcounters h, fun ht => ?_, (commandEffect_of_exec h).err_le herr, fun hhung => ?_⟩
  · obtain ⟨hs, hengine⟩ := exec_unseeded h ht
    exact hengine.trans (hunseeded hs)
  · obtain ⟨hrange, hseeded, rfl⟩ := exec_hangs h hhung
    exact ⟨hseeded, i, hdecode, hrange⟩

end Command

/-! ### The invariant of a run: reset, and the other host events -/

/-- Settles O58, a fixed state's values. -/
theorem invariantAtReset : Obligations.InvariantAtReset :=
  ⟨countersOk_reset, fun _ => rfl, by decide, fun h => by cases h⟩

section Event

variable {s t : State}

theorem State.busy_of_not_idle (h : s.phase ≠ .idle) : s.busy = true := by
  cases hphase : s.phase with
  | idle => exact absurd hphase h
  | running n => exact congrArg Phase.busy hphase
  | hung => exact congrArg Phase.busy hphase

/-- While a command is in progress no host event but a reset changes the command or its operands (R296). -/
theorem hostTurn_of_busy (hbusy : s.busy = true) (hreset : ∀ rest, s.host ≠ .reset :: rest) (h : hostTurn s = .next t) :
    t.cmd = s.cmd ∧ t.opa = s.opa ∧ t.opb = s.opb ∧ t.snap = s.snap := by
  rcases hostTurn_next h with ⟨-, rfl⟩ | ⟨agent, r, v, rest, -, -, rfl⟩ | ⟨_, _, _, -, -, rfl⟩ | ⟨_, _, -, -, rfl⟩
    | ⟨rest, hh, -⟩
  · rw [s.passEvent_eq.1]; exact ⟨rfl, rfl, rfl, rfl⟩
  · obtain ⟨hframe, hpass⟩ := ({ s with host := rest, owner := some agent } : State).passEvent_eq
    rw [State.hostWrite_of_busy (hpass.trans hbusy), hframe]; exact ⟨rfl, rfl, rfl, rfl⟩
  · rw [State.hostRead_frame, (State.passEvent_eq _).1]; exact ⟨rfl, rfl, rfl, rfl⟩
  · rw [State.hostRead_frame, (State.passEvent_eq _).1]; exact ⟨rfl, rfl, rfl, rfl⟩
  · exact absurd hh (hreset rest)

@[simp] theorem State.hostRead_phase (s : State) (r : Reg) : (s.hostRead r).phase = s.phase := by
  rw [State.hostRead_frame]

theorem State.phase_of_passEvent_hung (h : s.passEvent.phase = .hung) : s.phase = .hung := by
  unfold State.passEvent at h
  split at h
  case h_3 => cases h
  all_goals exact h

theorem State.phase_of_hostWrite_hung {v : Word} {r : Reg} (h : (s.hostWrite v r).phase = .hung) : s.phase = .hung := by
  unfold State.hostWrite at h
  split at h
  · exact h
  · cases r with
    | cmd => cases h
    | _ => exact h

/-- No host event makes a block hang. -/
theorem hostTurn_hung (h : hostTurn s = .next t) (hhung : t.phase = .hung) : s.phase = .hung := by
  rcases hostTurn_next h with ⟨-, rfl⟩ | ⟨_, _, _, _, -, -, rfl⟩ | ⟨_, _, _, -, -, rfl⟩ | ⟨_, _, -, -, rfl⟩ | ⟨_, -, rfl⟩
  · exact State.phase_of_passEvent_hung hhung
  · have hphase := State.phase_of_passEvent_hung (State.phase_of_hostWrite_hung hhung)
    exact hphase
  · have hphase := State.phase_of_passEvent_hung ((State.hostRead_phase _ _).symm.trans hhung)
    exact hphase
  · have hphase := State.phase_of_passEvent_hung ((State.hostRead_phase _ _).symm.trans hhung)
    exact hphase
  · cases hhung

/-- The invariant speaks of registers that R49 gives a value; the model's own fields do not matter. -/
theorem resetBlock_invariant (s : State) : invariant s.resetBlock := invariantAtReset

theorem hostTurn_keeps_invariant (hs : invariant s) (h : hostTurn s = .next t) : invariant t := by
  by_cases hreset : ∃ rest, s.host = .reset :: rest
  · obtain ⟨rest, hh⟩ := hreset
    rw [hostTurn, hh] at h
    obtain rfl := Host.Outcome.next.inj h
    exact resetBlock_invariant _
  · have hnone := not_exists.mp hreset
    obtain ⟨hcounters, hunseeded, herr, hhang⟩ := hs
    have hengine := hostTurn_engine hnone h
    have hseeded : t.seeded = s.seeded := congrArg Engine.seeded hengine
    obtain ⟨-, herr', -⟩ := hostTurn_keeps hnone h
    refine ⟨hengine ▸ hcounters, fun ht => ?_, herr' ▸ herr, fun hhung => ?_⟩
    · exact hengine.trans (hunseeded (hseeded ▸ ht))
    · have hhung' := hostTurn_hung h hhung
      obtain ⟨hcmd, -⟩ := hostTurn_of_busy (State.busy_of_hung hhung') hnone h
      rw [hseeded, hcmd]
      exact hhang hhung'

end Event

theorem State.raise_invariant {s : State} (hs : invariant s) (e : ErrorKind) : invariant (s.raise e) := by
  obtain ⟨hcounters, hunseeded, -, -⟩ := hs
  exact ⟨hcounters, hunseeded, e.code_le, fun h => by cases h⟩

/-- Settles O59: a step is the end of a command, legal or not, or a host event, and each keeps the invariant. -/
theorem stepKeepsInvariant : Obligations.StepKeepsInvariant := by
  intro s t hs h
  by_cases hdue : s.phase = .running 0
  · rcases step_due_effect hdue h with ⟨i, hdecode, hexec, -⟩ | ⟨-, rfl⟩
    · exact exec_keeps_invariant hs hdecode hexec
    · exact State.raise_invariant hs _
  · exact hostTurn_keeps_invariant hs (step_of_not_due hdue ▸ h)

/-- Settles O18: no host event but a reset writes what only commands write, and while busy none writes an operand. -/
theorem hostAccessFrame : Obligations.HostAccessFrame := by
  intro s t hdue hreset h
  have hnone : ∀ rest, s.host ≠ .reset :: rest := fun rest hh => hreset ⟨hdue, rest, hh⟩
  rw [step_of_not_due hdue] at h
  obtain ⟨hcount, herr, hresult⟩ := hostTurn_keeps hnone h
  exact ⟨hostTurn_engine hnone h, herr, hresult, hcount,
    fun hidle => hostTurn_of_busy (State.busy_of_not_idle hidle) hnone h⟩

/-! ### SEED on every state (R147) -/

/-- The four words of `SeedExpand` are `Mix64` of the four accumulators. -/
theorem seedExpand_words (seed : Word) :
    [(seedExpand seed).s0, (seedExpand seed).s1, (seedExpand seed).s2, (seedExpand seed).s3]
      = [seed + 0x9E3779B97F4A7C15, seed + 2 * 0x9E3779B97F4A7C15, seed + 3 * 0x9E3779B97F4A7C15,
          seed + 4 * 0x9E3779B97F4A7C15].map mix64 := by
  simp [seedExpand_eq, BitVec.add_assoc]

/-- The first four multiples of the increment differ mod 2^64. -/
theorem accumulators_nodup (seed : Word) :
    [seed + 0x9E3779B97F4A7C15, seed + 2 * 0x9E3779B97F4A7C15, seed + 3 * 0x9E3779B97F4A7C15,
      seed + 4 * 0x9E3779B97F4A7C15].Nodup := by
  have hmultiples : [(0x9E3779B97F4A7C15 : Word), 2 * 0x9E3779B97F4A7C15, 3 * 0x9E3779B97F4A7C15,
    4 * 0x9E3779B97F4A7C15].Nodup := by decide
  exact hmultiples.map (add_right_injective seed)

theorem length_filter_eq_le_one {l : List Word} (h : l.Nodup) (x : Word) : (l.filter (· = x)).length ≤ 1 := by
  have hcount := List.nodup_iff_count_le_one.mp h x
  rw [List.count_eq_length_filter] at hcount
  exact hcount

/-- Settles O27: `Mix64` is injective on the finite type of words, so distinct accumulators give distinct words. -/
theorem seedNeverFails : Obligations.SeedNeverFails := by
  refine ⟨Finite.injective_iff_bijective.mp mix64_injective, accumulators_nodup, fun seed => ?_, exec_seed⟩
  rw [seedExpand_words]
  exact length_filter_eq_le_one ((accumulators_nodup seed).map mix64_injective) 0

/-! ### The code of each command (R262) -/

section Codes

variable {i : Instr} {s t : State}

theorem rangeForm_of_isNext (h : isNext i = true) : rangeForm i = none := by
  cases i with
  | rangeU8 | rangeS8 | rangeU16 | rangeS16 | rangeU32 | rangeS32 | rangeU64 | rangeS64 => cases h
  | _ => rfl

theorem needsSeed_of_isNext (h : isNext i = true) : needsSeed i = true := by simp [needsSeed, isDraw, h]

theorem exec_err_of_unseeded (hneeds : needsSeed i = true) (hs : s.seeded = false) (h : exec i s = .next t) :
    t.err = 4 := by
  obtain rfl := Host.Outcome.next.inj (h.symm.trans (exec_needsSeed_of_unseeded hneeds hs))
  rfl

/-- A NEXT or a CAPTURE has no check but that of `SEEDED`. -/
theorem exec_err_of_needsSeed (hneeds : needsSeed i = true) (hform : rangeForm i = none) (h : exec i s = .next t) :
    t.err = 0 ∨ t.err = 4 := by
  cases hs : s.seeded with
  | true =>
    have hrestore : i ≠ .restore := by rintro rfl; cases hneeds
    exact .inl (exec_succeeds hform hrestore (fun _ => hs) h)
  | false => exact .inr (exec_err_of_unseeded hneeds hs h)

theorem exec_err_of_isRange (hrange : isRange i = true) (h : exec i s = .next t) (hidle : t.phase = .idle) :
    t.err = 0 ∨ t.err = 2 ∨ t.err = 4 := by
  cases hs : s.seeded with
  | true =>
    obtain ⟨⟨w, sgn⟩, hform⟩ := Option.isSome_iff_exists.mp hrange
    obtain ⟨raw, -, hraw⟩ := exec_of_rangeForm hform
    rw [rangeDraw_err hs (hraw ▸ h) hidle]
    split
    · exact .inr (.inl rfl)
    · exact .inl rfl
  | false => exact .inr (.inr (exec_err_of_unseeded (needsSeed_of_isRange hrange) hs h))

end Codes

/-- Settles O54: the checks that each class of commands makes name its codes. -/
theorem codesOfEachCommand : Obligations.CodesOfEachCommand := by
  intro i s t h hidle
  refine ⟨?_, ?_, fun hnext => exec_err_of_needsSeed (needsSeed_of_isNext hnext) (rangeForm_of_isNext hnext) h,
    fun hrange => exec_err_of_isRange hrange h hidle, ?_, ?_⟩
  · rintro rfl
    exact exec_succeeds rfl (by decide) (fun hneeds => by cases hneeds) h
  · rintro rfl
    exact .inl (exec_succeeds rfl (by decide) (fun hneeds => by cases hneeds) h)
  · rintro rfl
    exact exec_err_of_needsSeed rfl rfl h
  · rintro rfl
    rw [exec_restore_err h]
    split
    · exact .inr rfl
    · exact .inl rfl

/-! ### The frame of the commands (R41-R45, R205) -/

section Frame

variable {c : Cache} {i : Instr} {s t : State}

/-- No command writes `CMD`, an operand or the host's side of the window. -/
theorem commandEffect.frame (h : commandEffect i s t) :
    t.cmd = s.cmd ∧ t.opa = s.opa ∧ t.opb = s.opb ∧ t.host = s.host ∧ t.lastRead = s.lastRead
      ∧ t.freeIndex = s.freeIndex := by
  rcases h with ⟨e, rfl⟩ | ⟨-, rfl⟩ | ⟨-, rfl⟩ | ⟨-, -, rfl⟩ | ⟨-, -, rfl⟩ | ⟨-, -, rfl⟩ | ⟨-, -, _, _, _, rfl⟩
  all_goals exact ⟨rfl, rfl, rfl, rfl, rfl, rfl⟩

theorem commandEffect.snap (h : commandEffect i s t) (hi : i ≠ .capture) : t.snap = s.snap := by
  rcases h with ⟨e, rfl⟩ | ⟨-, rfl⟩ | ⟨-, rfl⟩ | ⟨-, -, rfl⟩ | ⟨hcapture, -⟩ | ⟨-, -, rfl⟩ | ⟨-, -, _, _, _, rfl⟩
  case inr.inr.inr.inr.inl => exact absurd hcapture hi
  all_goals rfl

theorem commandEffect.result (h : commandEffect i s t) (hi : isDraw i = false) :
    t.result = s.result ∧ t.stepCount = s.stepCount := by
  rcases h with ⟨e, rfl⟩ | ⟨-, rfl⟩ | ⟨-, rfl⟩ | ⟨-, -, rfl⟩ | ⟨-, -, rfl⟩ | ⟨-, -, rfl⟩ | ⟨hdraw, -⟩
  case inr.inr.inr.inr.inr.inr => cases hi.symm.trans hdraw
  all_goals exact ⟨rfl, rfl⟩

theorem commandEffect.engine (h : commandEffect i s t) (hi : i = .nop ∨ i = .capture) : t.engine = s.engine := by
  rcases h with ⟨e, rfl⟩ | ⟨-, rfl⟩ | ⟨-, rfl⟩ | ⟨hseed, -⟩ | ⟨-, -, rfl⟩ | ⟨hrestore, -⟩ | ⟨hdraw, -⟩
  case inr.inr.inr.inl => rcases hi with rfl | rfl <;> cases hseed
  case inr.inr.inr.inr.inr.inl => rcases hi with rfl | rfl <;> cases hrestore
  case inr.inr.inr.inr.inr.inr => rcases hi with rfl | rfl <;> cases hdraw
  all_goals rfl

theorem exec_of_cacheOf (h : cacheOf i = some c) :
    ∃ sgn, exec i = nextDraw c.draw sgn ∨ exec i = rangeDraw c.draw sgn := by
  cases i <;> cases h
  case nextB | nextU8 | nextU16 | nextU32 => exact ⟨false, .inl rfl⟩
  case nextS8 | nextS16 | nextS32 => exact ⟨true, .inl rfl⟩
  case rangeU8 | rangeU16 | rangeU32 => exact ⟨false, .inr rfl⟩
  case rangeS8 | rangeS16 | rangeS32 => exact ⟨true, .inr rfl⟩

theorem exec_of_cacheOf_none (hd : isDraw i = true) (h : cacheOf i = none) :
    ∃ sgn, exec i = nextDraw Engine.raw64 sgn ∨ exec i = rangeDraw Engine.raw64 sgn := by
  cases i
  case nextU64 => exact ⟨false, .inl rfl⟩
  case nextS64 => exact ⟨true, .inl rfl⟩
  case rangeU64 => exact ⟨false, .inr rfl⟩
  case rangeS64 => exact ⟨true, .inr rfl⟩
  case nop | seed | capture | restore => cases hd
  all_goals cases h

/-- A NEXT or a RANGE leaves a cache that its raw draw leaves. -/
theorem sameCache_of_draw {w : Nat} {raw : Engine → Draw w} {sgn : Bool}
    (hraw : ∀ e, sameCache c (raw e).engine e) (hexec : exec i = nextDraw raw sgn ∨ exec i = rangeDraw raw sgn)
    (h : exec i s = .next t) : sameCache c t.engine s.engine := by
  have hkeeps : ∀ e, sameCache c e s.engine → sameCache c (raw e).engine s.engine := fun e he => (hraw e).trans he
  rcases hexec with he | he <;> rw [he] at h
  · exact nextDraw_keeps (P := (sameCache c · s.engine)) hkeeps (sameCache.refl c _) h
  · exact rangeDraw_keeps (P := (sameCache c · s.engine)) hkeeps (sameCache.refl c _) h

/-- A drawing command leaves the caches of other widths (R205). -/
theorem exec_sameCache (hd : isDraw i = true) (hc : cacheOf i ≠ some c) (h : exec i s = .next t) :
    sameCache c t.engine s.engine := by
  cases hcache : cacheOf i with
  | none =>
    obtain ⟨sgn, hexec⟩ := exec_of_cacheOf_none hd hcache
    exact sameCache_of_draw (sameCache_raw64 c) hexec h
  | some own =>
    obtain ⟨sgn, hexec⟩ := exec_of_cacheOf hcache
    have hne : c ≠ own := fun heq => hc (hcache.trans (congrArg some heq.symm))
    exact sameCache_of_draw (Cache.draw_sameCache_of_ne hne) hexec h

end Frame

/-- Settles O56: what `commandEffect` leaves, and the caches that the raw draw of each width leaves. -/
theorem commandFrame : Obligations.CommandFrame := by
  intro i s t h
  have heffect := commandEffect_of_exec h
  obtain ⟨hcmd, hopa, hopb, hhost, hlastRead, hfreeIndex⟩ := heffect.frame
  exact ⟨hcmd, hopa, hopb, heffect.ovr, hhost, hlastRead, heffect.owner, hfreeIndex, heffect.snap, heffect.result,
    fun hi => heffect.engine (by simpa using hi), fun hd _ hc => exec_sameCache hd hc h, heffect.ends⟩

/-! ### Words written out field by field (R101) -/

/-- Settles O4: the bits of each word are the fields of its command, which `decode` reads back. -/
theorem sampleWordsDecode : Obligations.SampleWordsDecode := by
  have hfields : ∀ i, decode (i.fields.rsv ++ i.fields.sgn ++ i.fields.wid ++ i.fields.op) = .ok i :=
    fun i => (decodeInvertsEncode _ i).mpr rfl
  exact ⟨hfields .seed, hfields .nextS16, hfields .nextU64, hfields .rangeS32, hfields .restore⟩

end Sys2Proof.Machine
